-- ==== Sys2Proof/Word.lean ====
section
/-! DEFINITION. Words, addresses and register numbers of CJG_RISC721 (spec/00_scope.md R5, R7; spec/10_state.md R20, R23). -/

namespace Sys2Proof

/-- A 32-bit word: a register, a data word, an instruction word (R5: XLEN = ILEN = 32). -/
abbrev Word := BitVec 32

/-- A 16-bit word address of PM or of DM (R5: AW = 16; R50: the unit of addressing is one 32-bit word). -/
abbrev Addr := BitVec 16

/-- A general register number, 0 to 31 (R20). Register 0 is SR (R21). -/
abbrev Reg := Fin 32

/-- One cell of a memory: the word address and the 32-bit word at it (R53: a memory holds words, never bytes). -/
abbrev Cell := Nat × Word

/-- A memory lists the words that have been written or loaded, addresses strictly rising (`Memory.wf`);
an unlisted address holds no value (R38, R40). -/
abbrev Memory := List Cell

end Sys2Proof
end

