-- ==== Sys2Proof/Config.lean ====
section
/-! DEFINITION. What the spec leaves as a parameter (spec/00_scope.md R6), with the defaults of spec/92_eei_decisions.md,
and the free values: constants with no body, of which nothing can be proved but that they are some value. -/

namespace Sys2Proof

/-- The 23 opcode groups (R89, R90), in the source's order. -/
inductive OpGroup
  | ld | st | cpy | push | pop | jmp | call | ret
  | add | sub | cmp | not | and | bic | or | xor
  | rs
  | fa | fs | fm | fd | fti | itf
  deriving DecidableEq, Repr

/-- Every opcode group, in the source's order. -/
def OpGroup.all : List OpGroup :=
  [.ld, .st, .cpy, .push, .pop, .jmp, .call, .ret,
   .add, .sub, .cmp, .not, .and, .bic, .or, .xor,
   .rs, .fa, .fs, .fm, .fd, .fti, .itf]

/-- The classes of instruction by the status bits they write as a side effect: the rows of R27's table, but the last (RET and
RETI replace SR whole, R145, R146, under every policy). -/
inductive FlagClass
  /-- ADD, SUB. -/
  | arith
  /-- CMP. -/
  | compare
  /-- NOT, AND, BIC, OR, XOR. -/
  | logical
  /-- SRL, SLL, SRA, RTR, RTL. -/
  | shift
  /-- RRC, RLC. -/
  | rotateCarry
  /-- FA, FS, FM, FD, FTI, ITF. -/
  | fpu
  /-- LD, ST, CPY, PUSH, POP. -/
  | transfer
  /-- JMP and the conditional jumps, CALL. -/
  | flow
  deriving DecidableEq, Repr

/-- How a 16-bit constant becomes a 32-bit operand (CONST_EXT, decision D8). -/
inductive ConstExt | sign | zero
  deriving DecidableEq, Repr

/-- What C means after SUB and CMP (SUB_CARRY, decision D10). -/
inductive SubCarry | noBorrow | borrow
  deriving DecidableEq, Repr

/-- What an interrupt vector entry is (VEC_MODE, decision D19): the handler's address, or code that is jumped to. -/
inductive VecMode | address | execute
  deriving DecidableEq, Repr

/-- The six floating-point functions (R190): each result depends on the operand words alone. -/
structure FP where
  add : Word → Word → Word
  sub : Word → Word → Word
  mul : Word → Word → Word
  div : Word → Word → Word
  toInt : Word → Word
  fromInt : Word → Word
  deriving Inhabited

/-- The parameters of R6, one field each. -/
structure Config where
  /-- OPC_LD … OPC_ITF (D1). -/
  opcode : OpGroup → BitVec 5
  /-- RK_POS (D2): the lowest bit of Rk in the register form of format A. -/
  rkPos : Nat
  /-- PC_VISIBLE_OFFSET (D5): "the PC value" of PC Relative addressing, as an offset from the instruction's own address. -/
  pcVisibleOffset : Addr
  /-- CONST_EXT (D8). -/
  constExt : ConstExt
  /-- FLAG_POLICY (D9, D14): the status bits each class writes, as a mask over SR's six flags. -/
  flagPolicy : FlagClass → Word
  /-- SUB_CARRY (D10). -/
  subCarry : SubCarry
  /-- SHIFT_COUNT_BITS (D13): how many low bits of x[rk] are a shift count. -/
  shiftCountBits : Nat
  /-- FP (D15). -/
  fp : FP
  /-- VEC_BASE (D19). -/
  vecBase : Addr
  /-- VEC_STRIDE (D19). -/
  vecStride : Addr
  /-- VEC_MODE (D19). -/
  vecMode : VecMode
  /-- RESET_PC (D23). -/
  resetPc : Addr
  /-- IO_REGION (D24), as closed ranges of DM addresses. -/
  ioRegion : List (Nat × Nat)

/-- FREE VALUE: the floating-point numerics, which the source does not state (R190, D15; assumption log 5). -/
opaque Config.freeFp : FP

/-- FREE VALUE: the interrupt request levels that the environment drives at a boundary (R35, R213; assumption log 3),
applied to `State.draws`. -/
opaque Config.freeIrq : Nat → BitVec 8

/-- FREE VALUE: the word that the environment answers to an I/O read (R58; assumption log 4), applied to `State.draws`. -/
opaque Config.freePortWord : Nat → Word

/-- FREE VALUE: what a DM word holds that nothing has written since reset (R38, R40, U9; assumption log 2): any value, fixed
at reset. -/
opaque Config.dmPowerOn : Addr → Word

/-- The opcode numbers of R89 (decision D1: the spec's own assignment, 0 … 22 in the source's order). -/
def Config.defaultOpcode : OpGroup → BitVec 5
  | .ld => 0 | .st => 1 | .cpy => 2 | .push => 3 | .pop => 4 | .jmp => 5 | .call => 6 | .ret => 7
  | .add => 8 | .sub => 9 | .cmp => 10 | .not => 11 | .and => 12 | .bic => 13 | .or => 14 | .xor => 15
  | .rs => 16
  | .fa => 17 | .fs => 18 | .fm => 19 | .fd => 20 | .fti => 21 | .itf => 22

/-- The table of R27 (decisions D9, D14) as masks over SR: C 0x01, N 0x02, V 0x04, Z 0x08, GE 0x10, L 0x20. -/
def Config.defaultFlagPolicy : FlagClass → Word
  | .arith => 0x0F
  | .compare => 0x3F
  | .logical => 0x0A
  | .shift => 0x0A
  | .rotateCarry => 0x0B
  | .fpu => 0
  | .transfer => 0
  | .flow => 0

/-- The default of every parameter (R6). -/
def config : Config where
  opcode := Config.defaultOpcode
  rkPos := 12
  pcVisibleOffset := 1
  constExt := .sign
  flagPolicy := Config.defaultFlagPolicy
  subCarry := .noBorrow
  shiftCountBits := 6
  fp := Config.freeFp
  vecBase := 0xFFF0
  vecStride := 2
  vecMode := .address
  resetPc := 0x0000
  ioRegion := [(0x3FFB, 0x3FFF), (0xFFE0, 0xFFFF)]

end Sys2Proof
end

