-- ==== Sys2Proof/Syntax.lean ====
section
/-! DEFINITION. The instructions: one constructor of `Instr` per row of spec/opcode_table.json (spec/30_encoding.md R90), over
operand forms with the encoding's selector bits already read. -/

namespace Sys2Proof

/-- The four addressing modes of LD, ST, the jumps and CALL (R60, R130). The index register of the first two is never
register 0, whose field code selects the last two. -/
inductive AddrMode
  /-- Indexed: `x[r][15:0] + addr16`. -/
  | indexed (r : Reg) (addr16 : Addr)
  /-- Register Direct: `x[r][15:0]`; the Address field is ignored. -/
  | regDirect (r : Reg)
  /-- PC Relative: the PC value `+ addr16`. -/
  | pcRelative (addr16 : Addr)
  /-- Absolute: `addr16`. -/
  | absolute (addr16 : Addr)
  deriving DecidableEq, Repr

/-- A data operand of formats T and A (R83, R85): a register (Control = 0) or the 16-bit constant (Control = 1). -/
inductive Source
  | reg (r : Reg)
  | const (const16 : BitVec 16)
  deriving DecidableEq, Repr

/-- A shift or rotate count of format S (R86): a register (Constant_Control = 0) or the 6-bit constant. -/
inductive Count
  | reg (rk : Reg)
  | const (const6 : BitVec 6)
  deriving DecidableEq, Repr

/-- The 40 instructions (R90), in the source's order. -/
inductive Instr
  -- Load/Store (spec/40_load_store.md)
  | ld (ri : Reg) (m : AddrMode)
  | st (ri : Reg) (m : AddrMode)
  -- Data transfer (spec/41_data_transfer.md)
  | cpy (ri : Reg) (src : Source)
  | push (src : Source)
  | pop (ri : Reg)
  -- Flow control (spec/42_flow_control.md)
  | jmp (m : AddrMode)
  | jc (m : AddrMode)
  | jn (m : AddrMode)
  | jv (m : AddrMode)
  | jz (m : AddrMode)
  | jnc (m : AddrMode)
  | jnn (m : AddrMode)
  | jnv (m : AddrMode)
  | jnz (m : AddrMode)
  | jge (m : AddrMode)
  | jl (m : AddrMode)
  | call (m : AddrMode)
  | ret
  | reti
  -- Manipulation (ALU) (spec/43_alu.md)
  | add (ri rj : Reg) (b : Source)
  | sub (ri rj : Reg) (b : Source)
  | cmp (rj : Reg) (b : Source)
  | not (ri rj : Reg)
  | and (ri rj : Reg) (b : Source)
  | bic (ri rj : Reg) (b : Source)
  | or (ri rj : Reg) (b : Source)
  | xor (ri rj : Reg) (b : Source)
  -- Rotate/Shift (spec/44_shift_rotate.md)
  | srl (ri rj : Reg) (n : Count)
  | sll (ri rj : Reg) (n : Count)
  | sra (ri rj : Reg) (n : Count)
  | rtr (ri rj : Reg) (n : Count)
  | rtl (ri rj : Reg) (n : Count)
  | rrc (ri rj : Reg) (n : Count)
  | rlc (ri rj : Reg) (n : Count)
  -- Floating point (spec/45_fpu.md)
  | fa (ri rj : Reg) (b : Source)
  | fs (ri rj : Reg) (b : Source)
  | fm (ri rj : Reg) (b : Source)
  | fd (ri rj : Reg) (b : Source)
  | fti (ri rj : Reg)
  | itf (ri rj : Reg)
  deriving DecidableEq, Repr

/-- JU is JMP (R101). -/
abbrev Instr.ju (m : AddrMode) : Instr := .jmp m
/-- JEQ is JZ (R101). -/
abbrev Instr.jeq (m : AddrMode) : Instr := .jz m
/-- JNE is JNZ (R101). -/
abbrev Instr.jne (m : AddrMode) : Instr := .jnz m

/-- Why a word selects no instruction (the rows of R93). -/
inductive Illegal
  /-- The opcode is assigned to no group (23 … 31 under R89). -/
  | unassignedOpcode
  /-- A jump whose condition selector is not in the Jump Condition table (0011, 0101, 1010, 1100, 1111). -/
  | unlistedCondition
  /-- A rotate/shift whose Control is 011. -/
  | unlistedShift
  /-- CALL, RET or RETI with condition bits other than 0000. -/
  | conditionOnCallOrReturn
  deriving DecidableEq, Repr

end Sys2Proof
end

