-- ==== Sys2Proof/Decode.lean ====
section
/-! DEFINITION. Decoding and encoding of instruction words (spec/30_encoding.md). The decoder is total (R95): every 32-bit word
is one instruction or is illegal for a named reason (R93). The encoder is written from the same tables (R82 – R86, R99). -/

namespace Sys2Proof

/-! ## Fields (R82 – R86) -/

/-- OpCode, bits [31:27] of every format. -/
def opField (w : Word) : BitVec 5 := w.extractLsb' 27 5
/-- Ri, bits [26:22] of every format. -/
def riField (w : Word) : Reg := (w.extractLsb' 22 5).toFin
/-- Rj, bits [21:17] of formats M, T, A and S. -/
def rjField (w : Word) : Reg := (w.extractLsb' 17 5).toFin
/-- Rk of format A's register form, five bits from `RK_POS` up (R85: bits [16:12], decision D2). -/
def rkFieldA (w : Word) : Reg := (w.extractLsb' config.rkPos 5).toFin
/-- Rk of format S's register form, bits [16:12] (R86). -/
def rkFieldS (w : Word) : Reg := (w.extractLsb' 12 5).toFin
/-- The condition selector C N V Z of format J, bits [21:18] (R84). -/
def ccField (w : Word) : BitVec 4 := w.extractLsb' 18 4
/-- Control of formats M, T and J, bit 16. -/
def ctlField (w : Word) : BitVec 1 := w.extractLsb' 16 1
/-- Address of formats M and J and Constant of format T, bits [15:0]. -/
def low16Field (w : Word) : BitVec 16 := w.extractLsb' 0 16
/-- Constant of format A, bits [16:1] (R85). -/
def constFieldA (w : Word) : BitVec 16 := w.extractLsb' 1 16
/-- Constant of format S, bits [16:11] (R86). -/
def constFieldS (w : Word) : BitVec 6 := w.extractLsb' 11 6
/-- Control of format S, bits [3:1] (R86). -/
def sctlField (w : Word) : BitVec 3 := w.extractLsb' 1 3
/-- Control of format A and Constant_Control of format S, bit 0. -/
def ctl0Field (w : Word) : BitVec 1 := w.extractLsb' 0 1

/-! ## Operand forms -/

/-- The addressing mode selected by an index register field and a Control bit (R60, R130). -/
def addrModeOf (r : Reg) (ctl : BitVec 1) (addr16 : Addr) : AddrMode :=
  if r = 0 then
    if ctl = 0 then .pcRelative addr16 else .absolute addr16
  else
    if ctl = 0 then .indexed r addr16 else .regDirect r

/-- The data operand of format T (R83). -/
def sourceT (w : Word) : Source :=
  if ctlField w = 0 then .reg (rjField w) else .const (low16Field w)

/-- The second operand of format A (R85, R159). -/
def sourceA (w : Word) : Source :=
  if ctl0Field w = 0 then .reg (rkFieldA w) else .const (constFieldA w)

/-- The count of format S (R86, R170). -/
def countS (w : Word) : Count :=
  if ctl0Field w = 0 then .reg (rkFieldS w) else .const (constFieldS w)

/-- The addressing mode of format M, whose index register field is Rj. -/
def modeM (w : Word) : AddrMode := addrModeOf (rjField w) (ctlField w) (low16Field w)

/-- The addressing mode of format J, whose index register field is Ri. -/
def modeJ (w : Word) : AddrMode := addrModeOf (riField w) (ctlField w) (low16Field w)

/-! ## The decoder (R95) -/

/-- The group with a given opcode number, if one is assigned (R89). -/
def groupOf (op : BitVec 5) : Option OpGroup := OpGroup.all.find? (fun g => config.opcode g = op)

/-- Group JMP, by its condition selector (R91). -/
def decodeJump (w : Word) : Except Illegal Instr :=
  match (ccField w).toNat with
  | 0b0000 => .ok (.jmp (modeJ w))
  | 0b1000 => .ok (.jc (modeJ w))
  | 0b0100 => .ok (.jn (modeJ w))
  | 0b0010 => .ok (.jv (modeJ w))
  | 0b0001 => .ok (.jz (modeJ w))
  | 0b0111 => .ok (.jnc (modeJ w))
  | 0b1011 => .ok (.jnn (modeJ w))
  | 0b1101 => .ok (.jnv (modeJ w))
  | 0b1110 => .ok (.jnz (modeJ w))
  | 0b0110 => .ok (.jge (modeJ w))
  | 0b1001 => .ok (.jl (modeJ w))
  | _ => .error .unlistedCondition

/-- Group RS, by its Control (R92); 011 selects no operation (R181). -/
def decodeShift (w : Word) : Except Illegal Instr :=
  match (sctlField w).toNat with
  | 0b000 => .ok (.srl (riField w) (rjField w) (countS w))
  | 0b001 => .ok (.sll (riField w) (rjField w) (countS w))
  | 0b010 => .ok (.sra (riField w) (rjField w) (countS w))
  | 0b100 => .ok (.rtr (riField w) (rjField w) (countS w))
  | 0b101 => .ok (.rtl (riField w) (rjField w) (countS w))
  | 0b110 => .ok (.rrc (riField w) (rjField w) (countS w))
  | 0b111 => .ok (.rlc (riField w) (rjField w) (countS w))
  | _ => .error .unlistedShift

/-- CALL, whose condition bits must be 0000 (R93, decision D16). -/
def decodeCall (w : Word) : Except Illegal Instr :=
  if ccField w = 0 then .ok (.call (modeJ w)) else .error .conditionOnCallOrReturn

/-- Group RET: Control selects RET (0) or RETI (1); the condition bits must be 0000 (R84, R93). -/
def decodeReturn (w : Word) : Except Illegal Instr :=
  if ccField w = 0 then
    if ctlField w = 0 then .ok .ret else .ok .reti
  else .error .conditionOnCallOrReturn

/-- The instruction of a group (R90, R95). -/
def decodeGroup (w : Word) : OpGroup → Except Illegal Instr
  | .ld => .ok (.ld (riField w) (modeM w))
  | .st => .ok (.st (riField w) (modeM w))
  | .cpy => .ok (.cpy (riField w) (sourceT w))
  | .push => .ok (.push (sourceT w))
  | .pop => .ok (.pop (riField w))
  | .jmp => decodeJump w
  | .call => decodeCall w
  | .ret => decodeReturn w
  | .add => .ok (.add (riField w) (rjField w) (sourceA w))
  | .sub => .ok (.sub (riField w) (rjField w) (sourceA w))
  | .cmp => .ok (.cmp (rjField w) (sourceA w))
  | .not => .ok (.not (riField w) (rjField w))
  | .and => .ok (.and (riField w) (rjField w) (sourceA w))
  | .bic => .ok (.bic (riField w) (rjField w) (sourceA w))
  | .or => .ok (.or (riField w) (rjField w) (sourceA w))
  | .xor => .ok (.xor (riField w) (rjField w) (sourceA w))
  | .rs => decodeShift w
  | .fa => .ok (.fa (riField w) (rjField w) (sourceA w))
  | .fs => .ok (.fs (riField w) (rjField w) (sourceA w))
  | .fm => .ok (.fm (riField w) (rjField w) (sourceA w))
  | .fd => .ok (.fd (riField w) (rjField w) (sourceA w))
  | .fti => .ok (.fti (riField w) (rjField w))
  | .itf => .ok (.itf (riField w) (rjField w))

/-- The decoder: the instruction of a word, or why it selects none (R93, R95). It depends on the word alone. -/
def decode (w : Word) : Except Illegal Instr :=
  match groupOf (opField w) with
  | none => .error .unassignedOpcode
  | some g => decodeGroup w g

/-- The instruction that the decoder reads from a row's bits as spec/opcode_table.json numbers them: every row is one 32-bit
word (R80). Bits at `nbits` and above are 0. -/
def decodeTableWord (nbits w : Nat) : Option Instr :=
  match decode (BitVec.ofNat 32 (w % 2 ^ nbits)) with
  | .ok i => some i
  | .error _ => none

/-! ## The encoder

Ignored fields and unused bits are written 0 (R88, R99). -/

/-- A register number as a field. -/
def regBits (r : Reg) : BitVec 5 := BitVec.ofFin r

/-- Format M, and format T with `rj`, `ctl` and the constant in the same places (R82, R83). -/
def formatM (g : OpGroup) (ri rj : Reg) (ctl : BitVec 1) (low16 : BitVec 16) : Word :=
  config.opcode g ++ regBits ri ++ regBits rj ++ ctl ++ low16

/-- Format J (R84): bit 17 is unused. -/
def formatJ (g : OpGroup) (ri : Reg) (cc : BitVec 4) (ctl : BitVec 1) (addr16 : Addr) : Word :=
  config.opcode g ++ regBits ri ++ cc ++ 0#1 ++ ctl ++ addr16

/-- Formats A and S (R85, R86): the fields below Rj are the 17 bits `tail`. -/
def formatA (g : OpGroup) (ri rj : Reg) (tail : BitVec 17) : Word :=
  config.opcode g ++ regBits ri ++ regBits rj ++ tail

/-- The fields below Rj of format A: Rk at `RK_POS` with Control 0, or the constant with Control 1 (R85). -/
def tailA : Source → BitVec 17
  | .reg rk => (regBits rk).setWidth 17 <<< config.rkPos
  | .const c => c ++ 1#1

/-- The fields below Rj of format S: Rk, or the 6-bit constant, then the unused bits, Control and Constant_Control (R86). -/
def tailS (sctl : BitVec 3) : Count → BitVec 17
  | .reg rk => regBits rk ++ 0#8 ++ sctl ++ 0#1
  | .const n => n ++ 0#7 ++ sctl ++ 1#1

/-- The index register field of an addressing mode (R60). -/
def AddrMode.regField : AddrMode → Reg
  | .indexed r _ => r
  | .regDirect r => r
  | .pcRelative _ => 0
  | .absolute _ => 0

/-- The Control bit of an addressing mode (R60). -/
def AddrMode.ctlBit : AddrMode → BitVec 1
  | .indexed _ _ => 0
  | .regDirect _ => 1
  | .pcRelative _ => 0
  | .absolute _ => 1

/-- The Address field of an addressing mode: 0 in Register Direct mode, which ignores it. -/
def AddrMode.addrField : AddrMode → Addr
  | .indexed _ a => a
  | .regDirect _ => 0
  | .pcRelative a => a
  | .absolute a => a

/-- LD, ST. -/
def encodeM (g : OpGroup) (ri : Reg) (m : AddrMode) : Word := formatM g ri m.regField m.ctlBit m.addrField

/-- CPY, PUSH, POP. -/
def encodeT (g : OpGroup) (ri : Reg) : Source → Word
  | .reg rj => formatM g ri rj 0 0
  | .const c => formatM g ri 0 1 c

/-- The jumps and CALL. -/
def encodeJ (g : OpGroup) (cc : BitVec 4) (m : AddrMode) : Word := formatJ g m.regField cc m.ctlBit m.addrField

/-- The encoder: the word of a well-formed instruction (R82 – R92, R99). -/
def encode : Instr → Word
  | .ld ri m => encodeM .ld ri m
  | .st ri m => encodeM .st ri m
  | .cpy ri src => encodeT .cpy ri src
  | .push src => encodeT .push 0 src
  | .pop ri => encodeT .pop ri (.reg 0)
  | .jmp m => encodeJ .jmp 0b0000 m
  | .jc m => encodeJ .jmp 0b1000 m
  | .jn m => encodeJ .jmp 0b0100 m
  | .jv m => encodeJ .jmp 0b0010 m
  | .jz m => encodeJ .jmp 0b0001 m
  | .jnc m => encodeJ .jmp 0b0111 m
  | .jnn m => encodeJ .jmp 0b1011 m
  | .jnv m => encodeJ .jmp 0b1101 m
  | .jnz m => encodeJ .jmp 0b1110 m
  | .jge m => encodeJ .jmp 0b0110 m
  | .jl m => encodeJ .jmp 0b1001 m
  | .call m => encodeJ .call 0b0000 m
  | .ret => formatJ .ret 0 0b0000 0 0
  | .reti => formatJ .ret 0 0b0000 1 0
  | .add ri rj b => formatA .add ri rj (tailA b)
  | .sub ri rj b => formatA .sub ri rj (tailA b)
  | .cmp rj b => formatA .cmp 0 rj (tailA b)
  | .not ri rj => formatA .not ri rj 0
  | .and ri rj b => formatA .and ri rj (tailA b)
  | .bic ri rj b => formatA .bic ri rj (tailA b)
  | .or ri rj b => formatA .or ri rj (tailA b)
  | .xor ri rj b => formatA .xor ri rj (tailA b)
  | .srl ri rj n => formatA .rs ri rj (tailS 0b000 n)
  | .sll ri rj n => formatA .rs ri rj (tailS 0b001 n)
  | .sra ri rj n => formatA .rs ri rj (tailS 0b010 n)
  | .rtr ri rj n => formatA .rs ri rj (tailS 0b100 n)
  | .rtl ri rj n => formatA .rs ri rj (tailS 0b101 n)
  | .rrc ri rj n => formatA .rs ri rj (tailS 0b110 n)
  | .rlc ri rj n => formatA .rs ri rj (tailS 0b111 n)
  | .fa ri rj b => formatA .fa ri rj (tailA b)
  | .fs ri rj b => formatA .fs ri rj (tailA b)
  | .fm ri rj b => formatA .fm ri rj (tailA b)
  | .fd ri rj b => formatA .fd ri rj (tailA b)
  | .fti ri rj => formatA .fti ri rj 0
  | .itf ri rj => formatA .itf ri rj 0

end Sys2Proof
end

