-- ==== Sys2Proof/Machine/State.lean ====
section
/-! DEFINITION. The state of the machine (spec/10_state.md), the reasons a step can stop (spec/60_exceptions.md R225), and the
state after reset (R38). Memories' operations are in Machine/Memory.lean. -/

namespace Sys2Proof.Machine

/-- One access to an I/O port, as the environment sees it (R58): a read with the word that the environment answered, or a
write (an output event). -/
inductive IoEvent
  | read (port : Addr) (value : Word)
  | write (port : Addr) (value : Word)
  deriving DecidableEq, Repr

/-- The state: everything spec/10_state.md gives the core, then the environment's inputs and the record of what reached it
(R12, R35, R58), which are the model's own fields. -/
structure State where
  /-- The general registers R0 … R31 (R20); `x[0]` is SR, the status register (R21, R26). -/
  x : Vector Word 32
  /-- The program counter (R23). -/
  pc : Addr
  /-- The hardware stack's sixteen entries (R31). -/
  hs : Vector Word 16
  /-- The hardware stack's depth, 0 … 16 (R31). -/
  sp : Fin 17
  /-- The shadow register file `SH[0..23]` (R33). -/
  sh : Vector Word 24
  /-- `in_isr`: true from interrupt entry until the RETI that ends it (R34). -/
  inIsr : Bool
  /-- Data memory (R36, R50). -/
  dm : Memory
  /-- Program memory (R36, R50). -/
  pm : Memory
  /-- MODEL'S OWN: the levels of `irq[7:0]` at the coming instruction boundaries, the next first (R35); beyond its end the
  levels are a free value. -/
  irqIn : List (BitVec 8)
  /-- MODEL'S OWN: the environment's answers to the coming I/O reads, the next first (R58); beyond its end the answer is a
  free value. -/
  portIn : List Word
  /-- MODEL'S OWN: the I/O accesses made so far, the oldest first (R58, R65). -/
  events : List IoEvent
  /-- MODEL'S OWN: how many free values have been drawn; the argument of `Config.freeIrq` and `Config.freePortWord`. -/
  draws : Nat
  deriving DecidableEq, Repr

/-- The ModelFaults of R225. None is an architected exception (R210): each marks behaviour that the sources do not define. -/
inductive Fault
  /-- Raised by the decoding of a fetched word that selects no instruction (R93). Safe: the machine stops where the hardware
  does something the source does not state. -/
  | illegalInstruction (why : Illegal)
  /-- Raised by PUSH, CALL and interrupt entry when the sixteen entries do not hold what they push (R31, R144, R216). Safe. -/
  | stackOverflow
  /-- Raised by POP, RET and RETI when the stack holds fewer entries than they pop (R32, R145, R146). Safe. -/
  | stackUnderflow
  /-- Raised by RETI when no interrupt entry is outstanding (R146). Safe. -/
  | retiOutsideIsr
  /-- Raised by an instruction fetch or a vector fetch from a PM word outside the loaded image (R225, UnwrittenRead). Safe. -/
  | unwrittenRead (addr : Addr)
  deriving DecidableEq, Repr

/-- Why an instruction has no meaning in the model. -/
inductive Refusal
  /-- Raised by an arm of `exec` whose instruction is not modelled yet; no arm is in this state. Safe. -/
  | notModelled (mnemonic : String)
  deriving DecidableEq, Repr

/-- The outcome of an instruction or of a step. -/
abbrev Result := Host.Outcome State Fault Refusal

/-- The machine right after reset (R38, R250): pc at RESET_PC, SR = 0, the stack empty, `in_isr` = 0, no word of PM or DM
loaded. R38 states no value for R1 … R31, HS[0..15] and SH[0..23]: 0 is the model's choice (assumption log 1). -/
def State.reset : State where
  x := Vector.replicate 32 0
  pc := config.resetPc
  hs := Vector.replicate 16 0
  sp := 0
  sh := Vector.replicate 24 0
  inIsr := false
  dm := []
  pm := []
  irqIn := []
  portIn := []
  events := []
  draws := 0

end Sys2Proof.Machine
end

