-- ==== Sys2Proof/Machine/Flags.lean ====
section
/-! DEFINITION. The status bits of SR (spec/10_state.md R26): their places, their computation (spec/43_alu.md R150 – R153,
spec/44_shift_rotate.md R171) and their reading as jump conditions (spec/42_flow_control.md R131). -/

namespace Sys2Proof.Machine

/-! ## Places (R26) -/

/-- SR.C, bit 0. -/
def srC (sr : Word) : Bool := sr.getLsbD 0
/-- SR.N, bit 1. -/
def srN (sr : Word) : Bool := sr.getLsbD 1
/-- SR.V, bit 2. -/
def srV (sr : Word) : Bool := sr.getLsbD 2
/-- SR.Z, bit 3. -/
def srZ (sr : Word) : Bool := sr.getLsbD 3
/-- SR.GE, bit 4. -/
def srGE (sr : Word) : Bool := sr.getLsbD 4
/-- SR.L, bit 5. -/
def srL (sr : Word) : Bool := sr.getLsbD 5
/-- SR.IE[n], bit 6 + n (R212: 1 = enabled). -/
def srIE (sr : Word) (n : Fin 8) : Bool := sr.getLsbD (6 + n.val)

/-! ## Side-effect updates (R27) -/

/-- Values for the six flags; the ones an instruction does not write are masked away by `mergeFlags`. -/
structure FlagValues where
  c : Bool := false
  n : Bool := false
  v : Bool := false
  z : Bool := false
  ge : Bool := false
  l : Bool := false
  deriving DecidableEq, Repr

/-- The six values in their places in SR (R26). -/
def flagWord (f : FlagValues) : Word :=
  (BitVec.ofBool f.l ++ BitVec.ofBool f.ge ++ BitVec.ofBool f.z ++ BitVec.ofBool f.v ++ BitVec.ofBool f.n
    ++ BitVec.ofBool f.c).setWidth 32

/-- SR with the bits of the mask replaced by the flag values and every other bit kept. -/
def mergeFlags (mask : Word) (f : FlagValues) (sr : Word) : Word :=
  (sr &&& ~~~mask) ||| (flagWord f &&& mask)

/-! ## The flags of a result -/

/-- The sum of R151 and its flags: a 33-bit sum, C its bit 32, V when operands of like sign give the other sign. -/
def addFlags (a b : Word) : Word × FlagValues :=
  let t : BitVec 33 := a.setWidth 33 + b.setWidth 33
  let r : Word := t.setWidth 32
  (r, { c := t.getLsbD 32, n := r.getLsbD 31, v := (a.getLsbD 31 == b.getLsbD 31) && (r.getLsbD 31 != a.getLsbD 31),
        z := r == 0 })

/-- The difference of R152 and its flags, with CMP's two order flags (R153): `A` plus the complement of `B` plus one in 33
bits; C is the carry out, 1 when there is no borrow (SUB_CARRY, decision D10). -/
def subFlags (a b : Word) : Word × FlagValues :=
  let t : BitVec 33 := a.setWidth 33 + (~~~b).setWidth 33 + 1
  let r : Word := t.setWidth 32
  let carry : Bool := match config.subCarry with
    | .noBorrow => t.getLsbD 32
    | .borrow => !t.getLsbD 32
  (r, { c := carry, n := r.getLsbD 31, v := (a.getLsbD 31 != b.getLsbD 31) && (r.getLsbD 31 != a.getLsbD 31),
        z := r == 0, ge := b.sle a, l := a.slt b })

/-- N and Z of a result (R150, R171), beside the carry that a rotate through carry leaves (R178, R179). For a class that
writes no flag by default it says what another FLAG_POLICY would write (assumption log 10). -/
def resultFlags (r : Word) (carry : Bool) : FlagValues :=
  { c := carry, n := r.getLsbD 31, z := r == 0 }

end Sys2Proof.Machine
end

