-- ==== Sys2Proof/Machine/Memory.lean ====
section
/-! DEFINITION. Reading and writing a memory of words (spec/20_memory.md R50, R53), in one canonical form. -/

namespace Sys2Proof.Machine

/-- The word at an address, or `none` where nothing has been written or loaded (R38, R40): what an unlisted address reads as. -/
def Memory.read : Memory → Nat → Option Word
  | [], _ => none
  | (k, v) :: rest, a => if k = a then some v else Memory.read rest a

/-- Write one word, keeping the addresses strictly rising. A written word is never `none`, so no entry is ever equal to what
an unlisted address reads as. -/
def Memory.write : Memory → Nat → Word → Memory
  | [], a, v => [(a, v)]
  | (k, w) :: rest, a, v =>
    if a < k then (a, v) :: (k, w) :: rest
    else if a = k then (a, v) :: rest
    else (k, w) :: Memory.write rest a v

/-- The canonical form: addresses strictly rising, each one a 16-bit address (R50). -/
abbrev Memory.wf (m : Memory) : Prop :=
  m.Pairwise (fun p q => p.1 < q.1) ∧ ∀ p ∈ m, p.1 < 2 ^ 16

end Sys2Proof.Machine
end

