-- ==== Sys2Proof/Machine/Ops.lean ====
section
/-! DEFINITION. The named operations over registers, memory, ports, the stack and the program counter, the taking of an
interrupt (spec/60_exceptions.md R214 – R217) and the return from one (spec/42_flow_control.md R146). -/

namespace Sys2Proof.Machine

/-! ## Outcomes -/

/-- A computation that may raise a ModelFault, as the outcome of an instruction. -/
def finish : Except Fault State → Result
  | .ok s => .next s
  | .error f => .fault f

/-! ## Registers (R20, R21, R29) -/

/-- `x[r]`. Register 0 is SR and reads as SR (R21): no register is hard-wired. -/
def State.reg (s : State) (r : Reg) : Word := s.x[r.val]

/-- `x[r] <- v`: all 32 bits. Register 0 is an ordinary destination (R29). -/
def State.setReg (s : State) (r : Reg) (v : Word) : State := { s with x := s.x.set r.val v }

/-- SR, which is `x[0]` (R21). -/
def State.sr (s : State) : Word := s.reg 0

/-- `x[0] <- v`. -/
def State.setSr (s : State) (v : Word) : State := s.setReg 0 v

/-- The flag update of an instruction (R27): the flags of its class (FLAG_POLICY, decision D9) go into SR. A class that writes
none leaves SR as it stands. -/
def State.writeFlags (s : State) (cls : FlagClass) (f : FlagValues) : State :=
  if config.flagPolicy cls = 0 then s else s.setSr (mergeFlags (config.flagPolicy cls) f s.sr)

/-- Write-back of an instruction with a destination (R160, R171, R198): the result into `ri`, then its class's flags into SR;
with `ri = 0` the result stands in SR and no flag is updated (R29, decision D12). -/
def State.writeBack (s : State) (cls : FlagClass) (ri : Reg) (r : Word) (f : FlagValues) : State :=
  if ri = 0 then s.setReg 0 r else (s.setReg ri r).writeFlags cls f

/-! ## Program counter (R23 – R25) -/

/-- `npc`: the address of the next sequential instruction, modulo 2^16 (R24, R25). -/
def State.npc (s : State) : Addr := s.pc + 1

/-- "The PC value" that PC Relative addressing adds to (R24, R62, decision D5). -/
def State.pcValue (s : State) : Addr := s.pc + config.pcVisibleOffset

/-- `pc <- t`. -/
def State.jump (s : State) (t : Addr) : State := { s with pc := t }

/-- `pc <- npc` (R9, step 4). -/
def State.advance (s : State) : State := s.jump s.npc

/-! ## Hardware stack (R31, R32) -/

/-- `Push(v)`. -/
def push (v : Word) (s : State) : Except Fault State :=
  if h : s.sp.val < 16 then .ok { s with hs := s.hs.set s.sp.val v, sp := ⟨s.sp.val + 1, by omega⟩ }
  else .error .stackOverflow

/-- `Pop()`: the top word, and the state without it. -/
def pop (s : State) : Except Fault (Word × State) :=
  if h : 0 < s.sp.val then .ok (s.hs[s.sp.val - 1], { s with sp := ⟨s.sp.val - 1, by omega⟩ })
  else .error .stackUnderflow

/-! ## Data space (R55 – R58) -/

/-- The address is an I/O port (`IO_REGION`, R55, decision D24). -/
def isIo (a : Addr) : Bool := config.ioRegion.any (fun r => r.1 ≤ a.toNat && a.toNat ≤ r.2)

/-- The DM word at an address that is no port: what was last written or loaded there, or else whatever the word held at
reset, a free value (R40, assumption log 2). -/
def State.dmWord (s : State) (a : Addr) : Word := (Memory.read s.dm a.toNat).getD (Config.dmPowerOn a)

/-- `IORead(a)`: the environment's answer, taken once and recorded (R58). -/
def ioRead (a : Addr) (s : State) : Word × State :=
  match s.portIn with
  | v :: rest => (v, { s with portIn := rest, events := s.events ++ [.read a v] })
  | [] =>
    (Config.freePortWord s.draws,
      { s with events := s.events ++ [.read a (Config.freePortWord s.draws)], draws := s.draws + 1 })

/-- `IOWrite(a, v)`: the output event `(a, v)` (R58). -/
def ioWrite (a : Addr) (v : Word) (s : State) : State := { s with events := s.events ++ [.write a v] }

/-- `MemRead(a, 1)` (R56). -/
def memRead (a : Addr) (s : State) : Word × State := if isIo a then ioRead a s else (s.dmWord a, s)

/-- `MemWrite(a, 1, v)` (R57). -/
def memWrite (a : Addr) (v : Word) (s : State) : State :=
  if isIo a then ioWrite a v s else { s with dm := Memory.write s.dm a.toNat v }

/-! ## Program space (R59, R67) -/

/-- `PMRead(a)`; a word outside the loaded image is UnwrittenRead (R225). -/
def pmRead (a : Addr) (s : State) : Except Fault Word :=
  match Memory.read s.pm a.toNat with
  | some w => .ok w
  | none => .error (.unwrittenRead a)

/-- Fetch the word at pc and decode it (R9, steps 2 and 3). -/
def fetchDecode (s : State) : Except Fault Instr :=
  match pmRead s.pc s with
  | .error f => .error f
  | .ok w =>
    match decode w with
    | .ok i => .ok i
    | .error why => .error (.illegalInstruction why)

/-- The host fills PM before the run (R253, R255). -/
def State.loadPm (s : State) (image : List (Addr × Word)) : State :=
  { s with pm := image.foldl (fun m c => Memory.write m c.1.toNat c.2) s.pm }

/-- The host fills parts of DM before the run (R253, R255); a port is no memory, so nothing is loaded there (R55). -/
def State.loadDm (s : State) (image : List (Addr × Word)) : State :=
  { s with dm := image.foldl (fun m c => if isIo c.1 then m else Memory.write m c.1.toNat c.2) s.dm }

/-! ## Interrupts (R211 – R217) -/

/-- `irq[7:0]` at this boundary: the environment's levels, with `irq[6]` and `irq[7]`, which have no source, at 0 (R35,
R211, decision D36). -/
def State.irq (s : State) : BitVec 8 :=
  (match s.irqIn with
    | levels :: _ => levels
    | [] => Config.freeIrq s.draws) &&& 0x3F

/-- The state once the request lines have been sampled at this boundary (R35). -/
def State.sampled (s : State) : State :=
  match s.irqIn with
  | _ :: rest => { s with irqIn := rest }
  | [] => { s with draws := s.draws + 1 }

/-- The source taken at this boundary, if any: with `in_isr` = 0, the smallest requested and enabled one (R214). -/
def State.taken (s : State) : Option (Fin 8) :=
  if s.inIsr then none
  else [0, 1, 2, 3, 4, 5, 6, 7].find? (fun n : Fin 8 => srIE s.sr n && s.irq.getLsbD n.val)

/-- The address of source `n`'s vector entry, 0xFFF0 + 2n (R217). -/
def vectorAddr (n : Fin 8) : Addr := config.vecBase + config.vecStride * BitVec.ofNat 16 n.val

/-- Where source `n`'s service starts (R217, decision D19): the low 16 bits of its vector entry. -/
def handler (n : Fin 8) (s : State) : Except Fault Addr :=
  match config.vecMode with
  | .address => (pmRead (vectorAddr n) s).map (·.setWidth 16)
  | .execute => .ok (vectorAddr n)

/-- `for i in 0 .. 23: SH[i] <- x[i]` (R216). -/
def State.saveShadow (s : State) : State := { s with sh := Vector.ofFn (fun i : Fin 24 => s.x[i.val]) }

/-- `for i in 0 .. 23: x[i] <- SH[i]` (R146); R24 … R31 are kept (R22). -/
def State.restoreShadow (s : State) : State :=
  { s with x := Vector.ofFn (fun i : Fin 32 => if h : i.val < 24 then s.sh[i.val] else s.x[i.val]) }

/-- Push the return address, then SR (CALL, R144; interrupt entry, R216). -/
def pushReturn (ret : Addr) (s : State) : Except Fault State := do
  let s1 ← push (ret.setWidth 32) s
  push s.sr s1

/-- Pop SR, then the return address, of which the low 16 bits are the pc (RET, R145; RETI, R146; R25): the address, and the
state with SR popped. -/
def popReturn (s : State) : Except Fault (Addr × State) := do
  let (w, s1) ← pop s
  let (t, s2) ← pop s1
  pure (t.setWidth 16, s2.setSr w)

/-- TAKING AN INTERRUPT: entry for source `n` (R216). The two pushes save pc and SR, R0 … R23 are copied to the shadow file,
`in_isr` is set, and pc goes to the handler; SR is not changed. -/
def enterInterrupt (n : Fin 8) (s : State) : Except Fault State := do
  let s1 ← pushReturn s.pc s
  let t ← handler n s1
  pure { s1.saveShadow with inIsr := true, pc := t }

/-- RETURNING FROM AN INTERRUPT (R146, R218): pop SR and pc, restore R0 … R23 from the shadow file, whose copy of SR is
applied last (decision D22), and clear `in_isr`. -/
def returnFromInterrupt (s : State) : Except Fault State :=
  if s.inIsr then do
    let (t, s1) ← popReturn s
    pure { s1.restoreShadow with inIsr := false, pc := t }
  else .error .retiOutsideIsr

end Sys2Proof.Machine
end

