-- ==== Sys2Proof/Machine/Operands.lean ====
section
/-! DEFINITION. The operand forms: addressing modes (spec/20_memory.md R60 – R63, spec/42_flow_control.md R130), data operands
(spec/41_data_transfer.md, spec/43_alu.md R159), shift counts (spec/44_shift_rotate.md R170) and jump conditions (R131). -/

namespace Sys2Proof.Machine

/-- The effective address of a mode (R60, R61): 16-bit arithmetic, on the low 16 bits of the index register. -/
def effAddr (m : AddrMode) (s : State) : Addr :=
  match m with
  | .indexed r addr16 => (s.reg r).setWidth 16 + addr16
  | .regDirect r => (s.reg r).setWidth 16
  | .pcRelative addr16 => s.pcValue + addr16
  | .absolute addr16 => addr16

/-- A 16-bit constant as a 32-bit operand (R87, decision D8). -/
def extendConst (c : BitVec 16) : Word :=
  match config.constExt with
  | .sign => c.signExtend 32
  | .zero => c.setWidth 32

/-- The value of a data operand: a register (register 0 reads SR), or the extended constant (R159, and `src` of
spec/41_data_transfer.md). -/
def sourceValue (b : Source) (s : State) : Word :=
  match b with
  | .reg r => s.reg r
  | .const c => extendConst c

/-- The number of one-position steps of a shift or rotate, 0 … 63 (R170, decision D13). -/
def countValue (n : Count) (s : State) : Nat :=
  match n with
  | .reg rk => (s.reg rk).toNat % 2 ^ config.shiftCountBits
  | .const c => c.toNat

/-- The jump conditions of R131, as functions of SR alone. -/
inductive Cond
  | always | c | n | v | z | nc | nn | nv | nz | ge | l
  deriving DecidableEq, Repr

/-- `cond(cc)` (R131). -/
def condHolds (cond : Cond) (sr : Word) : Bool :=
  match cond with
  | .always => true
  | .c => srC sr
  | .n => srN sr
  | .v => srV sr
  | .z => srZ sr
  | .nc => !srC sr
  | .nn => !srN sr
  | .nv => !srV sr
  | .nz => !srZ sr
  | .ge => srGE sr
  | .l => srL sr

end Sys2Proof.Machine
end

