-- ==== Sys2Proof/Machine/Alu.lean ====
section
/-! DEFINITION. The ALU instructions (spec/43_alu.md). -/

namespace Sys2Proof.Machine

/-- ADD (R151). -/
def execAdd (ri rj : Reg) (b : Source) (s : State) : Result :=
  let (r, f) := addFlags (s.reg rj) (sourceValue b s)
  .next (s.writeBack .arith ri r f).advance

/-- SUB (R152). -/
def execSub (ri rj : Reg) (b : Source) (s : State) : Result :=
  let (r, f) := subFlags (s.reg rj) (sourceValue b s)
  .next (s.writeBack .arith ri r f).advance

/-- CMP (R153): the flags of the difference, GE and L with them; no result. -/
def execCmp (rj : Reg) (b : Source) (s : State) : Result :=
  .next (s.writeFlags .compare (subFlags (s.reg rj) (sourceValue b s)).2).advance

/-- The shape of the five logical instructions: a result, with N and Z (R150, R160). -/
def logical (ri : Reg) (r : Word) (s : State) : Result :=
  .next (s.writeBack .logical ri r (resultFlags r false)).advance

/-- NOT (R154): the bitwise complement (decision D34). -/
def execNot (ri rj : Reg) (s : State) : Result := logical ri (~~~(s.reg rj)) s

/-- AND (R155). -/
def execAnd (ri rj : Reg) (b : Source) (s : State) : Result := logical ri (s.reg rj &&& sourceValue b s) s

/-- BIC (R156). -/
def execBic (ri rj : Reg) (b : Source) (s : State) : Result := logical ri (s.reg rj &&& ~~~(sourceValue b s)) s

/-- OR (R157). -/
def execOr (ri rj : Reg) (b : Source) (s : State) : Result := logical ri (s.reg rj ||| sourceValue b s) s

/-- XOR (R158). -/
def execXor (ri rj : Reg) (b : Source) (s : State) : Result := logical ri (s.reg rj ^^^ sourceValue b s) s

end Sys2Proof.Machine
end

