-- ==== Sys2Proof/Machine/Flow.lean ====
section
/-! DEFINITION. The jumps, CALL, RET and RETI (spec/42_flow_control.md). The class of the jumps and CALL writes no flag (R27); RET
and RETI replace SR whole. -/

namespace Sys2Proof.Machine

/-- The body that the eleven jumps share: `if cond(cc) then pc <- T else pc <- npc`. -/
def jumpIf (cond : Cond) (m : AddrMode) (s : State) : Result :=
  .next ((if condHolds cond s.sr then s.jump (effAddr m s) else s.advance).writeFlags .flow {})

/-- JMP (R132). -/
def execJmp (m : AddrMode) (s : State) : Result := jumpIf .always m s
/-- JC (R133). -/
def execJc (m : AddrMode) (s : State) : Result := jumpIf .c m s
/-- JN (R134). -/
def execJn (m : AddrMode) (s : State) : Result := jumpIf .n m s
/-- JV (R135). -/
def execJv (m : AddrMode) (s : State) : Result := jumpIf .v m s
/-- JZ (R136). -/
def execJz (m : AddrMode) (s : State) : Result := jumpIf .z m s
/-- JNC (R137). -/
def execJnc (m : AddrMode) (s : State) : Result := jumpIf .nc m s
/-- JNN (R138). -/
def execJnn (m : AddrMode) (s : State) : Result := jumpIf .nn m s
/-- JNV (R139). -/
def execJnv (m : AddrMode) (s : State) : Result := jumpIf .nv m s
/-- JNZ (R140). -/
def execJnz (m : AddrMode) (s : State) : Result := jumpIf .nz m s
/-- JGE (R141): tests SR.GE (decision D11). -/
def execJge (m : AddrMode) (s : State) : Result := jumpIf .ge m s
/-- JL (R142): tests SR.L (decision D11). -/
def execJl (m : AddrMode) (s : State) : Result := jumpIf .l m s

/-- CALL (R144): the target is computed before anything is pushed; then npc and SR are pushed, in that order. -/
def execCall (m : AddrMode) (s : State) : Result :=
  finish ((pushReturn s.npc s).map (fun t => (t.jump (effAddr m s)).writeFlags .flow {}))

/-- RET (R145): pop SR, then pop and load pc. -/
def execRet (s : State) : Result :=
  finish ((popReturn s).map (fun p => p.2.jump p.1))

/-- RETI (R146). -/
def execReti (s : State) : Result := finish (returnFromInterrupt s)

end Sys2Proof.Machine
end

