-- ==== Sys2Proof/Machine/Fpu.lean ====
section
/-! DEFINITION. The floating-point instructions (spec/45_fpu.md). The numerics are the six functions of `config.fp`, which are
free values (R190, D15); no status bit is read, and their class writes none (R27, R191). -/

namespace Sys2Proof.Machine

/-- The shape of all six: the result into `ri` (with `ri = 0`, into SR; R198). -/
def fpuResult (ri : Reg) (r : Word) (s : State) : Result :=
  .next (s.writeBack .fpu ri r (resultFlags r false)).advance

/-- FA (R192). -/
def execFa (ri rj : Reg) (b : Source) (s : State) : Result := fpuResult ri (config.fp.add (s.reg rj) (sourceValue b s)) s
/-- FS (R193). -/
def execFs (ri rj : Reg) (b : Source) (s : State) : Result := fpuResult ri (config.fp.sub (s.reg rj) (sourceValue b s)) s
/-- FM (R194). -/
def execFm (ri rj : Reg) (b : Source) (s : State) : Result := fpuResult ri (config.fp.mul (s.reg rj) (sourceValue b s)) s
/-- FD (R195). -/
def execFd (ri rj : Reg) (b : Source) (s : State) : Result := fpuResult ri (config.fp.div (s.reg rj) (sourceValue b s)) s
/-- FTI (R196). -/
def execFti (ri rj : Reg) (s : State) : Result := fpuResult ri (config.fp.toInt (s.reg rj)) s
/-- ITF (R197). -/
def execItf (ri rj : Reg) (s : State) : Result := fpuResult ri (config.fp.fromInt (s.reg rj)) s

end Sys2Proof.Machine
end

