-- ==== Sys2Proof/Machine/LoadStore.lean ====
section
/-! DEFINITION. LD and ST (spec/40_load_store.md). Their class writes no flag (R27). -/

namespace Sys2Proof.Machine

/-- LD (R110): `x[ri] <- MemRead(EA, 1)`. -/
def execLd (ri : Reg) (m : AddrMode) (s : State) : Result :=
  let (v, t) := memRead (effAddr m s) s
  .next (t.writeBack .transfer ri v (resultFlags v false)).advance

/-- ST (R111): `MemWrite(EA, 1, x[ri])`. -/
def execSt (ri : Reg) (m : AddrMode) (s : State) : Result :=
  let v := s.reg ri
  .next ((memWrite (effAddr m s) v s).writeFlags .transfer (resultFlags v false)).advance

end Sys2Proof.Machine
end

