-- ==== Sys2Proof/Machine/Shift.lean ====
section
/-! DEFINITION. The rotate and shift instructions (spec/44_shift_rotate.md): each is its one-position step, applied the
counted number of times to the value and the carry (R172). -/

namespace Sys2Proof.Machine

/-- A one-position step on the value and the carry (R172). -/
abbrev ShiftStep := Word × Bool → Word × Bool

/-- `step^n` (R172): defined for every count; no count is reduced. -/
def iterateStep (step : ShiftStep) : Nat → Word × Bool → Word × Bool
  | 0, p => p
  | n + 1, p => iterateStep step n (step p)

/-- SRL's step (R173): `({0, v[31:1]}, c)`. -/
def stepSrl : ShiftStep := fun p => (0#1 ++ p.1.extractLsb' 1 31, p.2)
/-- SLL's step (R174): `({v[30:0], 0}, c)`. -/
def stepSll : ShiftStep := fun p => (p.1.extractLsb' 0 31 ++ 0#1, p.2)
/-- SRA's step (R175): `({v[31], v[31:1]}, c)`. -/
def stepSra : ShiftStep := fun p => (p.1.extractLsb' 31 1 ++ p.1.extractLsb' 1 31, p.2)
/-- RTR's step (R176): `({v[0], v[31:1]}, c)`. -/
def stepRtr : ShiftStep := fun p => (p.1.extractLsb' 0 1 ++ p.1.extractLsb' 1 31, p.2)
/-- RTL's step (R177): `({v[30:0], v[31]}, c)`. -/
def stepRtl : ShiftStep := fun p => (p.1.extractLsb' 0 31 ++ p.1.extractLsb' 31 1, p.2)
/-- RRC's step (R178): `({c, v[31:1]}, v[0])`. -/
def stepRrc : ShiftStep := fun p => (BitVec.ofBool p.2 ++ p.1.extractLsb' 1 31, p.1.getLsbD 0)
/-- RLC's step (R179): `({v[30:0], c}, v[31])`. -/
def stepRlc : ShiftStep := fun p => (p.1.extractLsb' 0 31 ++ BitVec.ofBool p.2, p.1.getLsbD 31)

/-- The body that the seven instructions share: `(r, cN) <- step^n(v0, SR.C)`, then write-back by the class (R170 – R172). -/
def shiftBy (cls : FlagClass) (step : ShiftStep) (ri rj : Reg) (n : Count) (s : State) : Result :=
  let (r, c) := iterateStep step (countValue n s) (s.reg rj, srC s.sr)
  .next (s.writeBack cls ri r (resultFlags r c)).advance

/-- SRL (R173). -/
def execSrl (ri rj : Reg) (n : Count) (s : State) : Result := shiftBy .shift stepSrl ri rj n s
/-- SLL (R174). -/
def execSll (ri rj : Reg) (n : Count) (s : State) : Result := shiftBy .shift stepSll ri rj n s
/-- SRA (R175). -/
def execSra (ri rj : Reg) (n : Count) (s : State) : Result := shiftBy .shift stepSra ri rj n s
/-- RTR (R176). -/
def execRtr (ri rj : Reg) (n : Count) (s : State) : Result := shiftBy .shift stepRtr ri rj n s
/-- RTL (R177). -/
def execRtl (ri rj : Reg) (n : Count) (s : State) : Result := shiftBy .shift stepRtl ri rj n s
/-- RRC (R178). -/
def execRrc (ri rj : Reg) (n : Count) (s : State) : Result := shiftBy .rotateCarry stepRrc ri rj n s
/-- RLC (R179). -/
def execRlc (ri rj : Reg) (n : Count) (s : State) : Result := shiftBy .rotateCarry stepRlc ri rj n s

end Sys2Proof.Machine
end

