-- ==== Sys2Proof/Machine/Transfer.lean ====
section
/-! DEFINITION. CPY, PUSH and POP (spec/41_data_transfer.md). Their class writes no flag (R27). -/

namespace Sys2Proof.Machine

/-- CPY (R120): `x[ri] <- src`. -/
def execCpy (ri : Reg) (src : Source) (s : State) : Result :=
  let v := sourceValue src s
  .next (s.writeBack .transfer ri v (resultFlags v false)).advance

/-- PUSH (R121): `Push(src)`. -/
def execPush (src : Source) (s : State) : Result :=
  let v := sourceValue src s
  finish ((push v s).map (fun t => (t.writeFlags .transfer (resultFlags v false)).advance))

/-- POP (R122): `x[ri] <- Pop()`. -/
def execPop (ri : Reg) (s : State) : Result :=
  finish ((pop s).map (fun p => (p.2.writeBack .transfer ri p.1 (resultFlags p.1 false)).advance))

end Sys2Proof.Machine
end

