-- ==== Sys2Proof/Machine/Dispatch.lean ====
section
/-! DEFINITION. The meaning of each instruction: one direct call per constructor (spec/30_encoding.md R90). -/

namespace Sys2Proof.Machine

def exec (i : Instr) (s : State) : Host.Outcome State Fault Refusal :=
  match i with
  -- spec/40_load_store.md
  | .ld ri m => Sys2Proof.Machine.execLd ri m s
  | .st ri m => Sys2Proof.Machine.execSt ri m s
  -- spec/41_data_transfer.md
  | .cpy ri src => Sys2Proof.Machine.execCpy ri src s
  | .push src => Sys2Proof.Machine.execPush src s
  | .pop ri => Sys2Proof.Machine.execPop ri s
  -- spec/42_flow_control.md
  | .jmp m => Sys2Proof.Machine.execJmp m s
  | .jc m => Sys2Proof.Machine.execJc m s
  | .jn m => Sys2Proof.Machine.execJn m s
  | .jv m => Sys2Proof.Machine.execJv m s
  | .jz m => Sys2Proof.Machine.execJz m s
  | .jnc m => Sys2Proof.Machine.execJnc m s
  | .jnn m => Sys2Proof.Machine.execJnn m s
  | .jnv m => Sys2Proof.Machine.execJnv m s
  | .jnz m => Sys2Proof.Machine.execJnz m s
  | .jge m => Sys2Proof.Machine.execJge m s
  | .jl m => Sys2Proof.Machine.execJl m s
  | .call m => Sys2Proof.Machine.execCall m s
  | .ret => Sys2Proof.Machine.execRet s
  | .reti => Sys2Proof.Machine.execReti s
  -- spec/43_alu.md
  | .add ri rj b => Sys2Proof.Machine.execAdd ri rj b s
  | .sub ri rj b => Sys2Proof.Machine.execSub ri rj b s
  | .cmp rj b => Sys2Proof.Machine.execCmp rj b s
  | .not ri rj => Sys2Proof.Machine.execNot ri rj s
  | .and ri rj b => Sys2Proof.Machine.execAnd ri rj b s
  | .bic ri rj b => Sys2Proof.Machine.execBic ri rj b s
  | .or ri rj b => Sys2Proof.Machine.execOr ri rj b s
  | .xor ri rj b => Sys2Proof.Machine.execXor ri rj b s
  -- spec/44_shift_rotate.md
  | .srl ri rj n => Sys2Proof.Machine.execSrl ri rj n s
  | .sll ri rj n => Sys2Proof.Machine.execSll ri rj n s
  | .sra ri rj n => Sys2Proof.Machine.execSra ri rj n s
  | .rtr ri rj n => Sys2Proof.Machine.execRtr ri rj n s
  | .rtl ri rj n => Sys2Proof.Machine.execRtl ri rj n s
  | .rrc ri rj n => Sys2Proof.Machine.execRrc ri rj n s
  | .rlc ri rj n => Sys2Proof.Machine.execRlc ri rj n s
  -- spec/45_fpu.md
  | .fa ri rj b => Sys2Proof.Machine.execFa ri rj b s
  | .fs ri rj b => Sys2Proof.Machine.execFs ri rj b s
  | .fm ri rj b => Sys2Proof.Machine.execFm ri rj b s
  | .fd ri rj b => Sys2Proof.Machine.execFd ri rj b s
  | .fti ri rj => Sys2Proof.Machine.execFti ri rj s
  | .itf ri rj => Sys2Proof.Machine.execItf ri rj s

end Sys2Proof.Machine
end

