-- ==== Sys2Proof/Machine/Step.lean ====
section
/-! DEFINITION. One step of the core (spec/00_scope.md R9): at the instruction boundary the request lines are sampled; then
either an interrupt is taken, or the instruction at pc is fetched, decoded and run. -/

namespace Sys2Proof.Machine

/-- One step (R9, R215, R222). -/
def step (s : State) : Host.Outcome State Fault Refusal :=
  match s.taken with
  | some n => finish (enterInterrupt n s.sampled)
  | none =>
    match fetchDecode s.sampled with
    | .ok i => exec i s.sampled
    | .error f => .fault f

/-- `s` with a row's word loaded at pc, and the request lines low at the coming boundary, so that the very next step runs
exactly that instruction (assumption log 6: a program is loaded from outside the machine). Every row is one 32-bit word. -/
def State.withFetchWord (s : State) (nbits w : Nat) : State :=
  { s with
    pm := Memory.write s.pm s.pc.toNat (BitVec.ofNat 32 (w % 2 ^ nbits))
    irqIn := 0 :: s.irqIn }

end Sys2Proof.Machine
end

