-- ==== Sys2Proof/Machine/Ieee.lean ====
section
/-! DEFINITION. The recommended instantiation of the floating-point functions (spec/45_fpu.md R199): IEEE 754 binary32,
rounding to nearest with ties to even. `exec` does not use it: its numerics are the free `config.fp` (R190). A claim under R199
takes `Recommended fp` for the functions `fp` it speaks of. R199 is [from general knowledge, not in source]. -/

namespace Sys2Proof.Machine

/-- A binary32 word as what it stands for: a NaN, an infinity, or the number `(-1)^neg · m · 2^(e - 149)` with `e` counted
from the least subnormal's exponent. -/
inductive Binary32
  | nan
  | inf (neg : Bool)
  | num (neg : Bool) (m : Nat) (e : Nat)
  deriving DecidableEq, Repr

/-- Read a word: sign [31], exponent [30:23] biased by 127, fraction [22:0]; subnormals supported (R199). -/
def binary32 (w : Word) : Binary32 :=
  let neg := w.getLsbD 31
  let ex := (w.extractLsb' 23 8).toNat
  let fr := (w.extractLsb' 0 23).toNat
  if ex = 255 then
    if fr = 0 then .inf neg else .nan
  else if ex = 0 then .num neg fr 0
  else .num neg (fr + 2 ^ 23) (ex - 1)

/-- The quiet NaN 0x7FC00000 (R199). -/
def quietNaN : Word := 0x7FC00000

/-- A magnitude's 31 bits under a sign bit. -/
def withSign (neg : Bool) (mag : Nat) : Word := BitVec.ofNat 32 (mag + if neg then 2 ^ 31 else 0)

/-- A signed zero. -/
def zero32 (neg : Bool) : Word := withSign neg 0

/-- A signed infinity. -/
def inf32 (neg : Bool) : Word := withSign neg (255 * 2 ^ 23)

/-- `a / b` to the nearest integer, ties to even (`b > 0`). -/
def divRoundEven (a b : Nat) : Nat :=
  let q := a / b
  let r := a % b
  if 2 * r < b then q
  else if b < 2 * r then q + 1
  else if q % 2 = 0 then q else q + 1

/-- The largest `k` with `den · 2^k ≤ num`, or 0 where `num < den`: the exponent of a quotient counted from the least
subnormal's. -/
def quotLog (num den : Nat) : Nat :=
  let d := Nat.log2 num - Nat.log2 den
  if den * 2 ^ d ≤ num then d else d - 1

/-- Round the number `(-1)^neg · num / den · 2^(-149)` to a word: nearest, ties to even, overflow to infinity (R199). The ulp
of a quotient in `[2^k, 2^(k+1))` is `2^(k-23)`, and that of the subnormals is 1; a significand that rounds up to the next
power of two carries into the exponent by the addition. -/
def roundTo32 (neg : Bool) (num den : Nat) : Word :=
  let u := quotLog num den - 23
  let mag := u * 2 ^ 23 + divRoundEven num (den * 2 ^ u)
  if 255 * 2 ^ 23 ≤ mag then inf32 neg else withSign neg mag

/-- A finite number's value over `2^(-149)`, as an integer. -/
def scaled (neg : Bool) (m e : Nat) : Int := if neg then -((m * 2 ^ e : Nat) : Int) else ((m * 2 ^ e : Nat) : Int)

/-- Addition: an exact zero sum is +0, but −0 where both operands are negative (zero). -/
def addIeee (a b : Word) : Word :=
  match binary32 a, binary32 b with
  | .nan, _ => quietNaN
  | _, .nan => quietNaN
  | .inf p, .inf q => if p = q then inf32 p else quietNaN
  | .inf p, .num _ _ _ => inf32 p
  | .num _ _ _, .inf q => inf32 q
  | .num p m e, .num q n f =>
    let t := scaled p m e + scaled q n f
    if t = 0 then zero32 (p && q) else roundTo32 (decide (t < 0)) t.natAbs 1

/-- The word with its sign bit flipped. -/
def negIeee (a : Word) : Word := a ^^^ 0x80000000

/-- Subtraction is the addition of the negated operand. -/
def subIeee (a b : Word) : Word := addIeee a (negIeee b)

/-- Multiplication: the product of two values over `2^(-149)` is over `2^(-298)`, so the denominator is `2^149`. -/
def mulIeee (a b : Word) : Word :=
  match binary32 a, binary32 b with
  | .nan, _ => quietNaN
  | _, .nan => quietNaN
  | .inf p, .inf q => inf32 (p != q)
  | .inf p, .num q n _ => if n = 0 then quietNaN else inf32 (p != q)
  | .num p m _, .inf q => if m = 0 then quietNaN else inf32 (p != q)
  | .num p m e, .num q n f =>
    if m * n = 0 then zero32 (p != q) else roundTo32 (p != q) (m * n * 2 ^ (e + f)) (2 ^ 149)

/-- Division: a non-zero finite number by zero is a signed infinity, 0/0 is the quiet NaN (R199). -/
def divIeee (a b : Word) : Word :=
  match binary32 a, binary32 b with
  | .nan, _ => quietNaN
  | _, .nan => quietNaN
  | .inf _, .inf _ => quietNaN
  | .inf p, .num q _ _ => inf32 (p != q)
  | .num p _ _, .inf q => zero32 (p != q)
  | .num p m e, .num q n f =>
    if n = 0 then
      if m = 0 then quietNaN else inf32 (p != q)
    else if m = 0 then zero32 (p != q)
    else roundTo32 (p != q) (m * 2 ^ (e + 149)) (n * 2 ^ f)

/-- The number of a finite word, rounded toward zero to an integer; none for NaN and infinity. -/
def truncIeee (a : Word) : Option Int :=
  match binary32 a with
  | .nan => none
  | .inf _ => none
  | .num neg m e =>
    let q : Int := (m * 2 ^ e / 2 ^ 149 : Nat)
    some (if neg then -q else q)

/-- Conversion to a signed 32-bit integer, rounding toward zero; none where R199 leaves it unspecified (NaN, out of range). -/
def toIntIeee (a : Word) : Option Word :=
  match truncIeee a with
  | none => none
  | some q => if -2 ^ 31 ≤ q ∧ q < 2 ^ 31 then some (BitVec.ofInt 32 q) else none

/-- Conversion from a signed 32-bit integer, rounding to nearest, ties to even. -/
def fromIntIeee (a : Word) : Word :=
  if a = 0 then zero32 false else roundTo32 (a.getLsbD 31) (a.toInt.natAbs * 2 ^ 149) 1

/-- The word is a NaN. -/
abbrev isNaN32 (w : Word) : Prop := binary32 w = .nan

/-- The functions are R199's. Where an operand is a NaN, IEEE 754 gives a NaN and does not fix its payload (U10), so only that
is asked; where R199 leaves a conversion unspecified, nothing is. -/
structure Recommended (fp : FP) : Prop where
  add : ∀ a b, ¬isNaN32 a → ¬isNaN32 b → fp.add a b = addIeee a b
  sub : ∀ a b, ¬isNaN32 a → ¬isNaN32 b → fp.sub a b = subIeee a b
  mul : ∀ a b, ¬isNaN32 a → ¬isNaN32 b → fp.mul a b = mulIeee a b
  div : ∀ a b, ¬isNaN32 a → ¬isNaN32 b → fp.div a b = divIeee a b
  toInt : ∀ a r, toIntIeee a = some r → fp.toInt a = r
  fromInt : ∀ a, fp.fromInt a = fromIntIeee a
  addNaN : ∀ a b, isNaN32 a ∨ isNaN32 b → isNaN32 (fp.add a b)
  subNaN : ∀ a b, isNaN32 a ∨ isNaN32 b → isNaN32 (fp.sub a b)
  mulNaN : ∀ a b, isNaN32 a ∨ isNaN32 b → isNaN32 (fp.mul a b)
  divNaN : ∀ a b, isNaN32 a ∨ isNaN32 b → isNaN32 (fp.div a b)

/-- One instantiation that is R199's, with 0 where R199 leaves a conversion unspecified: it shows that `Recommended` can be met. -/
def recommendedFp : FP where
  add := addIeee
  sub := subIeee
  mul := mulIeee
  div := divIeee
  toInt a := (toIntIeee a).getD 0
  fromInt := fromIntIeee

end Sys2Proof.Machine
end

