-- ==== Sys2Proof/Safety.lean ====
section
/-! DEFINITION. The terms that claims use: the invariant of the machine, what an instruction may change (the spec's own tables,
written apart from the meanings), the words an instruction reads, the request lines, and the end of a run. -/

namespace Sys2Proof.Machine

/-! ## The invariant -/

/-- The address is an I/O port (R55): 0x3FFB … 0x3FFF, or 0xFFE0 … 0xFFFF. -/
abbrev IsPort (a : Nat) : Prop := (0x3FFB ≤ a ∧ a ≤ 0x3FFF) ∨ (0xFFE0 ≤ a ∧ a ≤ 0xFFFF)

/-- The machine's invariant: both memories are in canonical form, and DM holds no word at a port's address, because a port is
no memory (R55, R57). -/
def StateInv (s : State) : Prop := Memory.wf s.dm ∧ Memory.wf s.pm ∧ ∀ p ∈ s.dm, ¬IsPort p.1

/-- A safe run of `n` steps: no fault and no refusal on the way. -/
def SafeFor (n : Nat) (s : State) : Prop := ∃ t, Host.Core.run Sys2Proof.core n s = .next t

/-- An outcome with its next state, if it has one, changed. -/
def mapNext (f : State → State) : Result → Result
  | .next s => .next (f s)
  | .fault r => .fault r
  | .refused r => .refused r

/-! ## What an instruction may change -/

/-- The register an instruction names as its destination (R99, column "uses", with the rule of each instruction). CMP, PUSH, ST,
the jumps and CALL name none; RET and RETI write registers without naming one. -/
def destOf : Instr → Option Reg
  | .ld ri _ => some ri
  | .st _ _ => none
  | .cpy ri _ => some ri
  | .push _ => none
  | .pop ri => some ri
  | .jmp _ => none
  | .jc _ => none
  | .jn _ => none
  | .jv _ => none
  | .jz _ => none
  | .jnc _ => none
  | .jnn _ => none
  | .jnv _ => none
  | .jnz _ => none
  | .jge _ => none
  | .jl _ => none
  | .call _ => none
  | .ret => none
  | .reti => none
  | .add ri _ _ => some ri
  | .sub ri _ _ => some ri
  | .cmp _ _ => none
  | .not ri _ => some ri
  | .and ri _ _ => some ri
  | .bic ri _ _ => some ri
  | .or ri _ _ => some ri
  | .xor ri _ _ => some ri
  | .srl ri _ _ => some ri
  | .sll ri _ _ => some ri
  | .sra ri _ _ => some ri
  | .rtr ri _ _ => some ri
  | .rtl ri _ _ => some ri
  | .rrc ri _ _ => some ri
  | .rlc ri _ _ => some ri
  | .fa ri _ _ => some ri
  | .fs ri _ _ => some ri
  | .fm ri _ _ => some ri
  | .fd ri _ _ => some ri
  | .fti ri _ => some ri
  | .itf ri _ => some ri

/-- The status bits an instruction writes as a side effect: R27's table, C 0x01, N 0x02, V 0x04, Z 0x08, GE 0x10, L 0x20. RET
and RETI replace all 32 bits of SR. -/
def sideBits : Instr → Word
  | .ld _ _ => 0
  | .st _ _ => 0
  | .cpy _ _ => 0
  | .push _ => 0
  | .pop _ => 0
  | .jmp _ => 0
  | .jc _ => 0
  | .jn _ => 0
  | .jv _ => 0
  | .jz _ => 0
  | .jnc _ => 0
  | .jnn _ => 0
  | .jnv _ => 0
  | .jnz _ => 0
  | .jge _ => 0
  | .jl _ => 0
  | .call _ => 0
  | .ret => 0xFFFFFFFF
  | .reti => 0xFFFFFFFF
  | .add _ _ _ => 0x0F
  | .sub _ _ _ => 0x0F
  | .cmp _ _ => 0x3F
  | .not _ _ => 0x0A
  | .and _ _ _ => 0x0A
  | .bic _ _ _ => 0x0A
  | .or _ _ _ => 0x0A
  | .xor _ _ _ => 0x0A
  | .srl _ _ _ => 0x0A
  | .sll _ _ _ => 0x0A
  | .sra _ _ _ => 0x0A
  | .rtr _ _ _ => 0x0A
  | .rtl _ _ _ => 0x0A
  | .rrc _ _ _ => 0x0B
  | .rlc _ _ _ => 0x0B
  | .fa _ _ _ => 0
  | .fs _ _ _ => 0
  | .fm _ _ _ => 0
  | .fd _ _ _ => 0
  | .fti _ _ => 0
  | .itf _ _ => 0

/-- Six flag values by their places in SR (R26). -/
def flagBit (c n v z ge l : Bool) : Nat → Bool
  | 0 => c
  | 1 => n
  | 2 => v
  | 3 => z
  | 4 => ge
  | 5 => l
  | _ => false

/-- `t` is `s` after an instruction that only writes a result and flags: the result `r` stands in `ri`; for `ri ≠ 0` the bits
of SR in `mask` have the values `bits`, and SR's other bits are kept (for `ri = 0` the result is all of SR, R29); every other
register is unchanged; pc is one further; and nothing else in the state differs. -/
def WritesBack (s t : State) (ri : Reg) (r : Word) (mask : Word) (bits : Nat → Bool) : Prop :=
  t = { s with x := t.x, pc := s.pc + 1 } ∧
  t.reg ri = r ∧
  (∀ q : Reg, q ≠ ri → q ≠ 0 → t.reg q = s.reg q) ∧
  (ri ≠ 0 → ∀ k, (t.reg 0).getLsbD k = if mask.getLsbD k then bits k else (s.reg 0).getLsbD k)

/-! ## The bits of its word that an instruction uses (R88, R99) -/

/-- R99's table as a mask over the instruction word: the opcode, the selectors and the operand fields that are used. -/
def usedBits : Instr → Word
  | .ld _ m => memBits m
  | .st _ m => memBits m
  | .cpy _ (.reg _) => 0xFFFF0000
  | .cpy _ (.const _) => 0xFFC1FFFF
  | .push (.reg _) => 0xF83F0000
  | .push (.const _) => 0xF801FFFF
  | .pop _ => 0xFFC00000
  | .jmp m => flowBits m
  | .jc m => flowBits m
  | .jn m => flowBits m
  | .jv m => flowBits m
  | .jz m => flowBits m
  | .jnc m => flowBits m
  | .jnn m => flowBits m
  | .jnv m => flowBits m
  | .jnz m => flowBits m
  | .jge m => flowBits m
  | .jl m => flowBits m
  | .call m => flowBits m
  | .ret => 0xF83D0000
  | .reti => 0xF83D0000
  | .add _ _ b => aluBits b
  | .sub _ _ b => aluBits b
  | .cmp _ (.reg _) => 0xF83FF001
  | .cmp _ (.const _) => 0xF83FFFFF
  | .not _ _ => 0xFFFE0000
  | .and _ _ b => aluBits b
  | .bic _ _ b => aluBits b
  | .or _ _ b => aluBits b
  | .xor _ _ b => aluBits b
  | .srl _ _ n => shiftBits n
  | .sll _ _ n => shiftBits n
  | .sra _ _ n => shiftBits n
  | .rtr _ _ n => shiftBits n
  | .rtl _ _ n => shiftBits n
  | .rrc _ _ n => shiftBits n
  | .rlc _ _ n => shiftBits n
  | .fa _ _ b => aluBits b
  | .fs _ _ b => aluBits b
  | .fm _ _ b => aluBits b
  | .fd _ _ b => aluBits b
  | .fti _ _ => 0xFFFE0000
  | .itf _ _ => 0xFFFE0000
where
  /-- Format M: the Address field is ignored in Register Direct mode. -/
  memBits : AddrMode → Word
    | .regDirect _ => 0xFFFF0000
    | .indexed _ _ => 0xFFFFFFFF
    | .pcRelative _ => 0xFFFFFFFF
    | .absolute _ => 0xFFFFFFFF
  /-- Format J: bit 17 is unused. -/
  flowBits : AddrMode → Word
    | .regDirect _ => 0xFFFD0000
    | .indexed _ _ => 0xFFFDFFFF
    | .pcRelative _ => 0xFFFDFFFF
    | .absolute _ => 0xFFFDFFFF
  /-- Format A: bits [11:1] are unused in the register form. -/
  aluBits : Source → Word
    | .reg _ => 0xFFFFF001
    | .const _ => 0xFFFFFFFF
  /-- Format S: bits [11:4] are unused in the register form, [10:4] in the constant form. -/
  shiftBits : Count → Word
    | .reg _ => 0xFFFFF00F
    | .const _ => 0xFFFFF80F

/-! ## The request lines (R35, R214) -/

/-- What the environment drives on `irq[7:0]` at the `k`-th boundary from here, the coming one being number 0, when no
instruction between draws a port's answer: the entry of `irqIn`, or beyond its end the free value (assumption log 3). -/
def levelsAt (s : State) (k : Nat) : BitVec 8 :=
  (s.irqIn[k]?).getD (Config.freeIrq (s.draws + (k - s.irqIn.length)))

/-- Source `n` is requested at the coming boundary: its line is high; `irq[6]` and `irq[7]` have no source (R35, decision
D36). -/
def requested (s : State) (n : Fin 8) : Bool := decide (n.val < 6) && (levelsAt s 0).getLsbD n.val

/-- The environment raises no request at the next `n` boundaries. -/
def NoRequestFor (n : Nat) (s : State) : Prop := ∀ k, k < n → levelsAt s k &&& 0x3F = 0

/-- A claim's assumption that the environment raises no further request (R256). -/
def NoFurtherRequest (s : State) : Prop := ∀ n, NoRequestFor n s

/-! ## The end of a run (R256, decision D31) -/

/-- The word at pc is the unconditional JMP that targets pc itself, Absolute or PC Relative. -/
def AtSelfJump (s : State) : Prop :=
  ∃ w m, Memory.read s.pm s.pc.toNat = some w ∧ decode w = .ok (.jmp m) ∧ (m = .absolute s.pc ∨ m = .pcRelative 0xFFFF)

/-- The spec's convention for the end of a run: the jump to itself, and no interrupt can be taken any more, because all enable
bits are 0 or because the claim assumes no further request. It says nothing about the hardware stopping. -/
def AtEnd (s : State) : Prop :=
  AtSelfJump s ∧ ((∀ n : Fin 8, (s.reg 0).getLsbD (6 + n.val) = false) ∨ NoFurtherRequest s)

/-- `t` is the final state of the run from `s`: the state at its first arrival at an end, after `n` steps. -/
def EndsAt (n : Nat) (s t : State) : Prop :=
  Host.Core.run Sys2Proof.core n s = .next t ∧ AtEnd t ∧
    ∀ k, k < n → ∀ u, Host.Core.run Sys2Proof.core k s = .next u → ¬AtEnd u

end Sys2Proof.Machine
end

