-- ==== Sys2Proof/WellFormed.lean ====
section
/-! DEFINITION. Which terms of `Instr` are instructions: the one condition that the types do not already carry is that the
index register of Indexed and Register Direct is not register 0 (spec/20_memory.md R60, spec/10_state.md R21). -/

namespace Sys2Proof

/-- The index register is not register 0: its field code selects PC Relative and Absolute (R60). -/
def AddrMode.wf : AddrMode → Bool
  | .indexed r _ => decide (r ≠ 0)
  | .regDirect r => decide (r ≠ 0)
  | .pcRelative _ => true
  | .absolute _ => true

/-- An instruction is well formed when its addressing mode is; register numbers and constants are in range by their types. -/
def Instr.wf : Instr → Bool
  | .ld _ m => m.wf
  | .st _ m => m.wf
  | .cpy _ _ => true
  | .push _ => true
  | .pop _ => true
  | .jmp m => m.wf
  | .jc m => m.wf
  | .jn m => m.wf
  | .jv m => m.wf
  | .jz m => m.wf
  | .jnc m => m.wf
  | .jnn m => m.wf
  | .jnv m => m.wf
  | .jnz m => m.wf
  | .jge m => m.wf
  | .jl m => m.wf
  | .call m => m.wf
  | .ret => true
  | .reti => true
  | .add _ _ _ => true
  | .sub _ _ _ => true
  | .cmp _ _ => true
  | .not _ _ => true
  | .and _ _ _ => true
  | .bic _ _ _ => true
  | .or _ _ _ => true
  | .xor _ _ _ => true
  | .srl _ _ _ => true
  | .sll _ _ _ => true
  | .sra _ _ _ => true
  | .rtr _ _ _ => true
  | .rtl _ _ _ => true
  | .rrc _ _ _ => true
  | .rlc _ _ _ => true
  | .fa _ _ _ => true
  | .fs _ _ _ => true
  | .fm _ _ _ => true
  | .fd _ _ _ => true
  | .fti _ _ => true
  | .itf _ _ => true

end Sys2Proof
end

