-- ==== Sys2Proof/Certificates/Slice0/Obligations.lean ====
section
/-! DEFINITION. The statements for the provers. A docstring names the rule of spec/ that a statement formalises. Where a rule
is one of the spec's own decisions (spec/92_eei_decisions.md, D<n>), or the clause is the model's choice (notes/assumptions),
the docstring says so. -/

open Sys2Proof Sys2Proof.Machine

/-! ## Reset, steps and runs -/

/-- The state after reset (R38; the spec's decision D23): pc 0, SR 0, an empty stack, no service routine running, nothing
loaded. -/
def Obligations.ResetState : Prop :=
  State.reset.pc = 0x0000 ∧ State.reset.reg 0 = 0 ∧ State.reset.sp = 0 ∧ State.reset.inIsr = false ∧
    State.reset.dm = [] ∧ State.reset.pm = []

/-- The state after reset meets the invariant. -/
def Obligations.ResetMeetsInvariant : Prop := StateInv State.reset

/-- Every step keeps the invariant: both memories stay in canonical form, and no word of DM ever stands at a port (R55, R57). -/
def Obligations.StepKeepsInvariant : Prop := ∀ s t : State, StateInv s → step s = .next t → StateInv t

/-- Whatever the host loads (R253, R255), every state that a run from reset reaches meets the invariant: a corollary of
StepKeepsInvariant and of what a load leaves. -/
def Obligations.LoadedRunKeepsInvariant : Prop :=
  ∀ (pmImage dmImage : List (Addr × Word)) (n : Nat) (t : State),
    Host.Core.run Sys2Proof.core n ((State.reset.loadPm pmImage).loadDm dmImage) = .next t → StateInv t

/-- The two address spaces (R36). Every 16-bit address that is no I/O location is a word of DM that ST writes and LD reads
whole. No other instruction reads or writes DM or reaches an I/O location, and neither does a fetch or an interrupt entry: a step
that is an interrupt entry, a fetch that fails, or an instruction that is no LD or ST is the same whatever DM and the ports hold,
and leaves them alone; and the instruction that a step runs is the same whatever DM holds. (What reaches the I/O locations is held
in the model's own fields `portIn`, `events` and `draws`: assumption logs 4, 8.) No instruction reads or writes PM, and a step
looks at nothing of PM but the word at pc and the vector table (R59); so PM is constant in every run. The hardware stack and the
shadow file are in neither space: LD and ST neither read nor write them. -/
def Obligations.ProgramMemoryConstant : Prop :=
  (∀ (ri rk : Reg) (m : AddrMode) (s : State), isIo (effAddr m s) = false →
    ∃ t u, exec (.st ri m) s = .next t ∧ exec (.ld rk (.absolute (effAddr m s))) t = .next u ∧ u.reg rk = s.reg ri) ∧
  (∀ (i : Instr) (s : State) (dm' : Memory) (portIn' : List Word) (events' : List IoEvent) (draws' : Nat),
    (∀ ri m, i ≠ .ld ri m) → (∀ ri m, i ≠ .st ri m) →
    exec i { s with dm := dm', portIn := portIn', events := events', draws := draws' } =
      mapNext (fun t => { t with dm := dm', portIn := portIn', events := events', draws := draws' }) (exec i s)) ∧
  (∀ (s : State) (dm' : Memory) (portIn' : List Word) (events' : List IoEvent),
    (s.taken = none → ∀ i, fetchDecode s = .ok i → (∀ ri m, i ≠ .ld ri m) ∧ ∀ ri m, i ≠ .st ri m) →
    step { s with dm := dm', portIn := portIn', events := events' } =
      mapNext (fun t => { t with dm := dm', portIn := portIn', events := events' }) (step s)) ∧
  (∀ (s : State) (i : Instr) (dm' : Memory), s.taken = none → fetchDecode s = .ok i →
    step { s with dm := dm' } = exec i { s.sampled with dm := dm' }) ∧
  (∀ (i : Instr) (s : State) (pm' : Memory),
    exec i { s with pm := pm' } = mapNext (fun t => { t with pm := pm' }) (exec i s)) ∧
  (∀ (s : State) (pm' : Memory),
    (∀ a, a = s.pc.toNat ∨ (0xFFF0 ≤ a ∧ a ≤ 0xFFFE) → Memory.read pm' a = Memory.read s.pm a) →
    step { s with pm := pm' } = mapNext (fun t => { t with pm := pm' }) (step s)) ∧
  (∀ (i : Instr) (s : State) (hs' : Vector Word 16) (sp' : Fin 17) (sh' : Vector Word 24),
    (∃ ri m, i = .ld ri m ∨ i = .st ri m) →
    exec i { s with hs := hs', sp := sp', sh := sh' } =
      mapNext (fun t => { t with hs := hs', sp := sp', sh := sh' }) (exec i s)) ∧
  ∀ (n : Nat) (s t : State), Host.Core.run Sys2Proof.core n s = .next t → t.pm = s.pm

/-- A step runs the decoded instruction (R9; decisions D5, D30): with nothing to take at the boundary, and a word at pc that
decodes to `i`, the step is `exec i` after the request lines have been sampled. How they are sampled is the model's choice
(assumption logs 3, 8): every boundary, with `in_isr` = 1 too, takes one entry of the environment's levels, or draws one free
value, and changes nothing else. -/
def Obligations.StepRunsDecodedInstruction : Prop :=
  (∀ s : State,
    s.sampled = { s with irqIn := s.irqIn.tail, draws := if s.irqIn = [] then s.draws + 1 else s.draws }) ∧
  ∀ (s : State) (w : Word) (i : Instr),
    (s.inIsr = true ∨ ∀ n : Fin 8, ((s.reg 0).getLsbD (6 + n.val) && requested s n) = false) →
    Memory.read s.pm s.pc.toNat = some w → decode w = .ok i →
    step s = exec i s.sampled

/-- A step that finds no instruction stops (R93, R225; decisions D4, D23): a word that selects none is IllegalInstruction, a
word outside the loaded image is UnwrittenRead. -/
def Obligations.StepFaultsWithoutInstruction : Prop :=
  ∀ s : State,
    (s.inIsr = true ∨ ∀ n : Fin 8, ((s.reg 0).getLsbD (6 + n.val) && requested s n) = false) →
    (∀ w why, Memory.read s.pm s.pc.toNat = some w → decode w = .error why →
      step s = .fault (.illegalInstruction why)) ∧
    (Memory.read s.pm s.pc.toNat = none → step s = .fault (.unwrittenRead s.pc))

/-- The spec's end of a run (R256, decision D31), with the model's request lines (assumption logs 3, 8). At an end the step
changes nothing but the sampling of the lines, and stays at the end, so the core executes the jump for ever. At the jump to
itself, whatever the enable bits, a run of `n` steps changes nothing but the sampling as long as the environment raises no
request. A run from a given state has at most one first arrival at an end: "the final state" is one state. -/
def Obligations.EndOfRunLoops : Prop :=
  ∀ s : State,
    (AtEnd s → step s = .next s.sampled ∧ AtEnd s.sampled) ∧
    (∀ n, AtSelfJump s → NoRequestFor n s →
      Host.Core.run Sys2Proof.core n s =
        .next { s with irqIn := s.irqIn.drop n, draws := s.draws + (n - s.irqIn.length) }) ∧
    (∀ n m t u, EndsAt n s t → EndsAt m s u → n = m ∧ t = u)

/-! ## Interrupts -/

/-- Acceptance and priority (R214): with `in_isr` = 0 the smallest source that is requested and enabled is taken; with
`in_isr` = 1, or with no such source, none is, and the step is the fetched instruction's. Source n is requested when the
environment's level n is high at the boundary, sources 6 and 7 never (R35, decision D36); the queue of levels is the model's
choice (assumption log 3). -/
def Obligations.AcceptanceTakesSmallest : Prop :=
  ∀ s : State,
    (∀ levels rest, s.irqIn = levels :: rest → ∀ n : Fin 8,
      requested s n = (decide (n.val < 6) && levels.getLsbD n.val) ∧ s.irq.getLsbD n.val = requested s n) ∧
    (∀ n : Fin 8, s.inIsr = false → ((s.reg 0).getLsbD (6 + n.val) && requested s n) = true →
      (∀ m : Fin 8, m < n → ((s.reg 0).getLsbD (6 + m.val) && requested s m) = false) →
      step s = finish (enterInterrupt n s.sampled)) ∧
    ((s.inIsr = true ∨ ∀ n : Fin 8, ((s.reg 0).getLsbD (6 + n.val) && requested s n) = false) →
      (∀ i, fetchDecode s.sampled = .ok i → step s = exec i s.sampled) ∧
      (∀ f, fetchDecode s.sampled = .error f → step s = .fault f))

/-- Interrupt entry (R216, R217; decisions D18, D19): pc and then SR are pushed, R0 … R23 are copied to the shadow file,
`in_isr` is set, pc is the low half of the vector word at 0xFFF0 + 2n; SR, R1 … R31, both memories and the ports are as
before. Of the model's own fields (assumption logs 3, 8) the boundary takes one entry of the queued levels, or one draw. -/
def Obligations.InterruptEntrySavesAndVectors : Prop :=
  ∀ (s : State) (n : Fin 8) (w : Word),
    s.inIsr = false → ((s.reg 0).getLsbD (6 + n.val) && requested s n) = true →
    (∀ m : Fin 8, m < n → ((s.reg 0).getLsbD (6 + m.val) && requested s m) = false) →
    s.sp.val ≤ 14 → Memory.read s.pm (0xFFF0 + 2 * n.val) = some w →
    ∃ t, step s = .next t ∧
      t = { s with
        pc := w.setWidth 16, hs := t.hs, sp := t.sp, sh := t.sh, inIsr := true
        irqIn := s.irqIn.tail, draws := if s.irqIn = [] then s.draws + 1 else s.draws } ∧
      t.sp.val = s.sp.val + 2 ∧
      t.hs[s.sp.val]? = some (s.pc.setWidth 32) ∧ t.hs[s.sp.val + 1]? = some (s.reg 0) ∧
      (∀ k, k < s.sp.val → t.hs[k]? = s.hs[k]?) ∧
      (∀ k, k < 24 → t.sh[k]? = s.x[k]?)

/-- Where interrupt entry cannot be performed the machine stops (R216, R225; decisions D17, D18, D23): StackOverflow with fewer
than two free entries, else UnwrittenRead for a vector word outside the image. -/
def Obligations.InterruptEntryFaults : Prop :=
  ∀ (s : State) (n : Fin 8),
    s.inIsr = false → ((s.reg 0).getLsbD (6 + n.val) && requested s n) = true →
    (∀ m : Fin 8, m < n → ((s.reg 0).getLsbD (6 + m.val) && requested s m) = false) →
    (15 ≤ s.sp.val → step s = .fault .stackOverflow) ∧
    (s.sp.val ≤ 14 → Memory.read s.pm (0xFFF0 + 2 * n.val) = none →
      step s = .fault (.unwrittenRead (BitVec.ofNat 16 (0xFFF0 + 2 * n.val))))

/-- ISR_6 and ISR_7 have no source (R35, R211; decision D36): neither is ever taken, whatever the enable bits and the lines;
and where no other source is enabled the step is the fetched instruction's. -/
def Obligations.UnusedSourcesNeverTaken : Prop :=
  (∀ (s : State) (n : Fin 8), s.taken = some n → n.val < 6) ∧
  ∀ (s : State) (i : Instr),
    (∀ n : Fin 8, n.val < 6 → (s.reg 0).getLsbD (6 + n.val) = false) →
    fetchDecode s = .ok i → step s = exec i s.sampled

/-- A service routine's RETI returns (R218, R219, R22; decisions D18, D20, D22): from any state that has the stack's depth and
the entries in use, the shadow file and `in_isr` that an entry from `s` left, whatever the routine pushed and popped above them,
RETI restores pc, R0 … R23 (SR with them), the stack's depth and `in_isr`, and
keeps R24 … R31 as the routine left them. -/
def Obligations.InterruptThenReti : Prop :=
  ∀ (s t t' : State) (n : Fin 8), s.inIsr = false → enterInterrupt n s = .ok t →
    (∀ k, k < t.sp.val → t'.hs[k]? = t.hs[k]?) → t'.sp = t.sp → t'.sh = t.sh → t'.inIsr = t.inIsr →
    ∃ u, exec .reti t' = .next u ∧ u.pc = s.pc ∧ u.sp = s.sp ∧ u.inIsr = false ∧
      (∀ k, k < 24 → u.x[k]? = s.x[k]?) ∧ (∀ k, 24 ≤ k → u.x[k]? = t'.x[k]?)

/-! ## Encoding -/

/-- Words written out bit by bit from the formats (R82 – R86, with R89's numbers, decision D1) decode to the instructions they
stand for: LD R2,[R1+0x0200]; CPY R1,#5; JNZ 0x0002; ADD R1,R1,R2; SUB R2,R2,#1; SLL R1,R1,#1; RRC R3,R4,R5; RETI; FA
R3,R4,R5. -/
def Obligations.SampleWordsDecode : Prop :=
  decode (0b00000000100000100000001000000000 : Word) = .ok (.ld 2 (.indexed 1 0x0200)) ∧
  decode (0b00010000010000010000000000000101 : Word) = .ok (.cpy 1 (.const 5)) ∧
  decode (0b00101000001110010000000000000010 : Word) = .ok (.jnz (.absolute 2)) ∧
  decode (0b01000000010000100010000000000000 : Word) = .ok (.add 1 1 (.reg 2)) ∧
  decode (0b01001000100001000000000000000011 : Word) = .ok (.sub 2 2 (.const 1)) ∧
  decode (0b10000000010000100000100000000011 : Word) = .ok (.sll 1 1 (.const 1)) ∧
  decode (0b10000000110010000101000000001100 : Word) = .ok (.rrc 3 4 (.reg 5)) ∧
  decode (0b00111000000000010000000000000000 : Word) = .ok .reti ∧
  decode (0b10001000110010000101000000000000 : Word) = .ok (.fa 3 4 (.reg 5))

/-- Decoding an encoded well-formed instruction gives it back, with every operand at every value (R82 – R92). -/
def Obligations.DecodeOfEncode : Prop := ∀ i : Instr, i.wf = true → decode (encode i) = .ok i

/-- Encoding a decoded instruction gives back the word with exactly the bits that R88 and R99 call unused or ignored at 0
(decision D3): the decoder reads every other bit, and no two words that differ in a used bit decode alike. -/
def Obligations.EncodeOfDecode : Prop :=
  ∀ (w : Word) (i : Instr), decode w = .ok i → encode i = w &&& usedBits i

/-- The bits that R88 and R99 call unused or ignored have no effect on decoding (decision D3). -/
def Obligations.UnusedBitsAreIgnored : Prop :=
  ∀ (w w' : Word) (i : Instr), decode w = .ok i → w' &&& usedBits i = w &&& usedBits i → decode w' = .ok i

/-- The decoder answers only well-formed instructions: register 0 is never an index register (R60, R95). -/
def Obligations.DecodedIsWellFormed : Prop := ∀ (w : Word) (i : Instr), decode w = .ok i → i.wf = true

/-- The illegal words are exactly those of R93's table (decisions D4, D16), each for its own reason. -/
def Obligations.IllegalWordsAreTheListed : Prop :=
  ∀ w : Word,
    (decode w = .error .unassignedOpcode ↔ 23 ≤ (w.extractLsb' 27 5).toNat) ∧
    (decode w = .error .unlistedCondition ↔
      w.extractLsb' 27 5 = 5#5 ∧
        w.extractLsb' 18 4 ∈ [0b0011#4, 0b0101#4, 0b1010#4, 0b1100#4, 0b1111#4]) ∧
    (decode w = .error .unlistedShift ↔ w.extractLsb' 27 5 = 16#5 ∧ w.extractLsb' 1 3 = 0b011#3) ∧
    (decode w = .error .conditionOnCallOrReturn ↔
      (w.extractLsb' 27 5 = 6#5 ∨ w.extractLsb' 27 5 = 7#5) ∧ w.extractLsb' 18 4 ≠ 0#4)

/-! ## Operands -/

/-- The addressing-mode table (R60): the mode is selected by the register field and Control, whatever the register holds; in
PC Relative mode the base is `npc`, the address after the instruction (decision D5); an address is formed from the low 16 bits
of the index register, modulo 2^16 (decision D6). -/
def Obligations.EffectiveAddressTable : Prop :=
  ∀ (r : Reg) (ctl : BitVec 1) (addr16 : Addr) (s : State),
    (r ≠ 0 → ctl = 0 →
      (effAddr (addrModeOf r ctl addr16) s).toNat = ((s.reg r).toNat % 2 ^ 16 + addr16.toNat) % 2 ^ 16) ∧
    (r ≠ 0 → ctl = 1 → (effAddr (addrModeOf r ctl addr16) s).toNat = (s.reg r).toNat % 2 ^ 16) ∧
    (r = 0 → ctl = 0 →
      (effAddr (addrModeOf r ctl addr16) s).toNat = ((s.pc.toNat + 1) % 2 ^ 16 + addr16.toNat) % 2 ^ 16) ∧
    (r = 0 → ctl = 1 → effAddr (addrModeOf r ctl addr16) s = addr16)

/-- Data operands and counts (R87, R159, R170; decisions D8, D13): a register operand is the register; a 16-bit constant is
sign-extended; a constant count is unsigned; a register count is the register's low six bits. -/
def Obligations.OperandValues : Prop :=
  ∀ s : State,
    (∀ r, sourceValue (.reg r) s = s.reg r) ∧
    (∀ c : BitVec 16, (sourceValue (.const c) s).toInt = c.toInt) ∧
    (∀ n : BitVec 6, countValue (.const n) s = n.toNat) ∧
    (∀ r, countValue (.reg r) s = ((s.reg r).extractLsb' 0 6).toNat)

/-! ## Load, store and data transfer -/

/-- LD (R110, R56, R58; IO_REGION is decision D24). Where the effective address is no port, and its DM word has been written,
that word goes to `ri`. At a port the environment's answer goes to `ri`: the next of the answers in the state, or any value
where the state holds none; the read is recorded once. The queue of answers, the draw and the record of reads are the model's
choice (assumption logs 4, 8). Nothing else changes but pc. -/
def Obligations.LoadResult : Prop :=
  ∀ (ri : Reg) (m : AddrMode) (s : State),
    (∀ v, ¬IsPort (effAddr m s).toNat → Memory.read s.dm (effAddr m s).toNat = some v →
      exec (.ld ri m) s = .next { s with x := s.x.set ri.val v, pc := s.pc + 1 }) ∧
    (∀ v rest, IsPort (effAddr m s).toNat → s.portIn = v :: rest →
      exec (.ld ri m) s = .next
        { s with x := s.x.set ri.val v, pc := s.pc + 1, portIn := rest, events := s.events ++ [.read (effAddr m s) v] }) ∧
    (IsPort (effAddr m s).toNat → s.portIn = [] →
      ∃ v, exec (.ld ri m) s = .next
        { s with x := s.x.set ri.val v, pc := s.pc + 1, events := s.events ++ [.read (effAddr m s) v], draws := s.draws + 1 })

/-- LD of a DM word that nothing has written (R40; the model's choice, assumption log 2): the load completes, with a free value
that depends on the address alone. -/
def Obligations.LoadOfUnwrittenWord : Prop :=
  ∀ (ri : Reg) (m : AddrMode) (s : State),
    ¬IsPort (effAddr m s).toNat → Memory.read s.dm (effAddr m s).toNat = none →
    exec (.ld ri m) s = .next { s with x := s.x.set ri.val (Config.dmPowerOn (effAddr m s)), pc := s.pc + 1 }

/-- ST through `MemWrite` (R57): at a port the output event `(EA, x[ri])` is recorded and DM is unchanged; elsewhere the DM word
at EA is `x[ri]` and every other word of DM reads as before. Nothing else changes but pc. -/
def Obligations.StoreResult : Prop :=
  ∀ (ri : Reg) (m : AddrMode) (s : State),
    (IsPort (effAddr m s).toNat →
      exec (.st ri m) s = .next { s with events := s.events ++ [.write (effAddr m s) (s.reg ri)], pc := s.pc + 1 }) ∧
    (¬IsPort (effAddr m s).toNat →
      ∃ t, exec (.st ri m) s = .next t ∧ t = { s with dm := t.dm, pc := s.pc + 1 } ∧
        Memory.read t.dm (effAddr m s).toNat = some (s.reg ri) ∧
        ∀ a, a ≠ (effAddr m s).toNat → Memory.read t.dm a = Memory.read s.dm a)

/-- A load returns the value of the most recent store to the same DM address (R65, decision D25), whatever the two addressing
modes, and a load from another address is not disturbed by the store. -/
def Obligations.StoreThenLoad : Prop :=
  ∀ (ri : Reg) (m : AddrMode) (s : State), ¬IsPort (effAddr m s).toNat →
    ∃ t, exec (.st ri m) s = .next t ∧
      (∀ rk m', effAddr m' t = effAddr m s → ∃ u, exec (.ld rk m') t = .next u ∧ u.reg rk = s.reg ri) ∧
      (∀ rk (a : Addr), a ≠ effAddr m s → ¬IsPort a.toNat →
        ∃ u v, exec (.ld rk (.absolute a)) t = .next u ∧ exec (.ld rk (.absolute a)) s = .next v ∧
          u.reg rk = v.reg rk)

/-- CPY (R120): `x[ri] <- src`, all of SR with `ri = 0`; no flag (R27, decision D9; assumption log 10) and nothing else changes
but pc. Format T with opcode 2 (the number is decision D1's; a constant source is extended by decision D8). -/
def Obligations.CopyResult : Prop :=
  ∀ (ri : Reg) (src : Source) (s : State),
    exec (.cpy ri src) s = .next { s with x := s.x.set ri.val (sourceValue src s), pc := s.pc + 1 } ∧
    ∀ w : Word, w.extractLsb' 27 5 = 2#5 →
      decode w = .ok (.cpy (w.extractLsb' 22 5).toFin
        (if w.extractLsb' 16 1 = 0#1 then .reg (w.extractLsb' 17 5).toFin else .const (w.extractLsb' 0 16)))

/-- CPY of a register to itself changes nothing but pc and can serve as a no-op (R94, derived from R120). -/
def Obligations.CopyToItself : Prop :=
  ∀ (r : Reg) (s : State), exec (.cpy r (.reg r)) s = .next { s with pc := s.pc + 1 }

/-- PUSH (R121): the source goes on top of the stack, whose depth grows by one; StackOverflow when it already holds sixteen
entries (R31, decision D17; assumption log 12). Nothing else changes but pc. Format T with opcode 3 (decision D1's number), `ri` unused. -/
def Obligations.PushResult : Prop :=
  ∀ (src : Source) (s : State),
    (s.sp.val < 16 →
      ∃ t, exec (.push src) s = .next t ∧ t = { s with hs := t.hs, sp := t.sp, pc := s.pc + 1 } ∧
        t.sp.val = s.sp.val + 1 ∧ t.hs[s.sp.val]? = some (sourceValue src s) ∧
        ∀ k, k ≠ s.sp.val → t.hs[k]? = s.hs[k]?) ∧
    (s.sp.val = 16 → exec (.push src) s = .fault .stackOverflow) ∧
    ∀ w : Word, w.extractLsb' 27 5 = 3#5 →
      decode w = .ok (.push (if w.extractLsb' 16 1 = 0#1 then .reg (w.extractLsb' 17 5).toFin else .const (w.extractLsb' 0 16)))

/-- POP (R122): the top word goes to `ri` (to all of SR with `ri = 0`) and the depth falls by one; StackUnderflow when the stack
is empty (R32, decision D17; assumption log 12). No flag (decision D9) and nothing else changes but pc. Format T with opcode 4 (decision D1's number), the other fields unused. -/
def Obligations.PopResult : Prop :=
  ∀ (ri : Reg) (s : State),
    (0 < s.sp.val →
      ∃ t v, exec (.pop ri) s = .next t ∧ s.hs[s.sp.val - 1]? = some v ∧
        t = { s with x := s.x.set ri.val v, sp := t.sp, pc := s.pc + 1 } ∧ t.sp.val + 1 = s.sp.val) ∧
    (s.sp.val = 0 → exec (.pop ri) s = .fault .stackUnderflow) ∧
    ∀ w : Word, w.extractLsb' 27 5 = 4#5 → decode w = .ok (.pop (w.extractLsb' 22 5).toFin)

/-- PUSH followed by POP (R122, corner case b): the pushed value comes off, and the depth is as before. -/
def Obligations.PushThenPop : Prop :=
  ∀ (src : Source) (ri : Reg) (s : State), s.sp.val < 16 →
    ∃ t u, exec (.push src) s = .next t ∧ exec (.pop ri) t = .next u ∧
      u.reg ri = sourceValue src s ∧ u.sp = s.sp ∧ ∀ q, q ≠ ri → u.reg q = s.reg q

/-! ## Flow control -/

/-- JMP (R132): `pc <- T`; nothing else changes. It is group JMP (opcode 5, decision D1's number) with condition bits 0000,
whatever bit 17, which decision D3 ignores (both in assumption log 9). -/
def Obligations.JumpAlways : Prop :=
  ∀ (m : AddrMode) (s : State),
    exec (.jmp m) s = .next { s with pc := effAddr m s } ∧
    ∀ w : Word, w.extractLsb' 27 5 = 5#5 → w.extractLsb' 18 4 = 0b0000#4 →
      decode w = .ok (.jmp (addrModeOf (w.extractLsb' 22 5).toFin (w.extractLsb' 16 1) (w.extractLsb' 0 16)))

/-- JC, JN, JV, JZ, JNC, JNN, JNV, JNZ (R133 – R140): each jumps exactly when its flag has its value, and changes nothing but
pc. Each row is the instruction, its flag's place in SR, the value that jumps, and its condition bits C N V Z in group JMP
(opcode 5, decision D1's number; bit 17 is ignored by decision D3; both in assumption log 9). -/
def Obligations.FlagJumps : Prop :=
  ∀ p ∈ ([(Instr.jc, 0, true, 0b1000#4), (Instr.jn, 1, true, 0b0100#4), (Instr.jv, 2, true, 0b0010#4),
      (Instr.jz, 3, true, 0b0001#4), (Instr.jnc, 0, false, 0b0111#4), (Instr.jnn, 1, false, 0b1011#4),
      (Instr.jnv, 2, false, 0b1101#4), (Instr.jnz, 3, false, 0b1110#4)] :
      List ((AddrMode → Instr) × Nat × Bool × BitVec 4)),
    ∀ (m : AddrMode) (s : State),
      exec (p.1 m) s = .next { s with pc := if (s.reg 0).getLsbD p.2.1 = p.2.2.1 then effAddr m s else s.pc + 1 } ∧
      ∀ w : Word, w.extractLsb' 27 5 = 5#5 → w.extractLsb' 18 4 = p.2.2.2 →
        decode w = .ok (p.1 (addrModeOf (w.extractLsb' 22 5).toFin (w.extractLsb' 16 1) (w.extractLsb' 0 16)))

/-- JGE and JL (R141, R142; decision D11): they test SR.GE (bit 4) and SR.L (bit 5), and change nothing but pc. -/
def Obligations.OrderJumps : Prop :=
  ∀ (m : AddrMode) (s : State),
    exec (.jge m) s = .next { s with pc := if (s.reg 0).getLsbD 4 = true then effAddr m s else s.pc + 1 } ∧
    exec (.jl m) s = .next { s with pc := if (s.reg 0).getLsbD 5 = true then effAddr m s else s.pc + 1 }

/-- CALL (R144; decisions D5, D16, D17): the address after the CALL and then SR are pushed, and pc is the target, computed
before the pushes; StackOverflow, with no effect, when fewer than two entries are free. -/
def Obligations.CallResult : Prop :=
  ∀ (m : AddrMode) (s : State),
    (s.sp.val ≤ 14 →
      ∃ t, exec (.call m) s = .next t ∧ t = { s with hs := t.hs, sp := t.sp, pc := effAddr m s } ∧
        t.sp.val = s.sp.val + 2 ∧ t.hs[s.sp.val]? = some ((s.pc + 1).setWidth 32) ∧
        t.hs[s.sp.val + 1]? = some (s.reg 0) ∧
        ∀ k, k ≠ s.sp.val → k ≠ s.sp.val + 1 → t.hs[k]? = s.hs[k]?) ∧
    (15 ≤ s.sp.val → exec (.call m) s = .fault .stackOverflow)

/-- RET (R145): all of SR is the top word, pc is the low half of the word below it, and the depth falls by two; StackUnderflow
when fewer than two entries are on the stack (decision D17; assumption log 12). Its word is 0x38000000 (decision D1); with
condition bits other than 0000 the word is illegal (decision D16). -/
def Obligations.RetResult : Prop :=
  (∀ s : State,
    (2 ≤ s.sp.val →
      ∃ t v w, exec .ret s = .next t ∧ s.hs[s.sp.val - 1]? = some v ∧ s.hs[s.sp.val - 2]? = some w ∧
        t = { s with x := s.x.set 0 v, pc := w.setWidth 16, sp := t.sp } ∧ t.sp.val + 2 = s.sp.val) ∧
    (s.sp.val < 2 → exec .ret s = .fault .stackUnderflow)) ∧
  encode .ret = 0x38000000 ∧
  ∀ w : Word, w.extractLsb' 27 5 = 7#5 → w.extractLsb' 16 1 = 0#1 →
    (w.extractLsb' 18 4 = 0#4 → decode w = .ok .ret) ∧
    (w.extractLsb' 18 4 ≠ 0#4 → decode w = .error .conditionOnCallOrReturn)

/-- RETI (R146; decisions D20, D22): R0 … R23 come from the shadow file, SR with them whatever word was popped; R24 … R31 are
kept; pc is the low half of the word below the top, the depth falls by two and `in_isr` is cleared. Outside a service routine
it is RetiOutsideIsr; with fewer than two entries on the stack, StackUnderflow. -/
def Obligations.RetiResult : Prop :=
  ∀ s : State,
    (s.inIsr = true → 2 ≤ s.sp.val →
      ∃ t w, exec .reti s = .next t ∧ s.hs[s.sp.val - 2]? = some w ∧
        t = { s with x := t.x, pc := w.setWidth 16, sp := t.sp, inIsr := false } ∧ t.sp.val + 2 = s.sp.val ∧
        (∀ k, k < 24 → t.x[k]? = s.sh[k]?) ∧ (∀ k, 24 ≤ k → t.x[k]? = s.x[k]?)) ∧
    (s.inIsr = false → exec .reti s = .fault .retiOutsideIsr) ∧
    (s.inIsr = true → s.sp.val < 2 → exec .reti s = .fault .stackUnderflow)

/-- A subroutine's RET returns to the instruction after its CALL, with SR as it was at the CALL (R144, corner cases a, d and e;
decisions D5, D16): from any state that has the stack's depth and the entries in use that the CALL left, whatever the subroutine
called, pushed and popped above them. -/
def Obligations.CallThenRet : Prop :=
  ∀ (m : AddrMode) (s : State), s.sp.val ≤ 14 →
    ∃ t, exec (.call m) s = .next t ∧
      ∀ t' : State, (∀ k, k < t.sp.val → t'.hs[k]? = t.hs[k]?) → t'.sp = t.sp →
        ∃ u, exec .ret t' = .next u ∧ u.pc = s.pc + 1 ∧ u.reg 0 = s.reg 0 ∧ u.sp = s.sp ∧
          ∀ q, q ≠ 0 → u.reg q = t'.reg q

/-! ## Integer arithmetic and logic -/

/-- ADD (R151): the 33-bit sum's low word goes to `ri`; C is its bit 32, N bit 31 of the result, V a like-signed pair of
operands with a result of the other sign, Z a zero result; GE, L and the rest of SR are kept. Which flags it writes is decision
D9, and what they mean is general knowledge that the spec supplies (R161; both in assumption log 10). Format A with opcode 8
(decisions D1, D2; a constant is extended by D8, and `ri = 0` suppresses the flags by D12). -/
def Obligations.AddResult : Prop :=
  ∀ (ri rj : Reg) (b : Source) (s : State),
    let A := s.reg rj
    let B := sourceValue b s
    let t33 : BitVec 33 := A.setWidth 33 + B.setWidth 33
    let r : Word := t33.extractLsb' 0 32
    (∃ t, exec (.add ri rj b) s = .next t ∧
      WritesBack s t ri r 0x0F
        (flagBit (t33.getLsbD 32) (r.getLsbD 31)
          (decide (A.getLsbD 31 = B.getLsbD 31 ∧ r.getLsbD 31 ≠ A.getLsbD 31)) (decide (r = 0)) false false)) ∧
    ∀ w : Word, w.extractLsb' 27 5 = 8#5 →
      decode w = .ok (.add (w.extractLsb' 22 5).toFin (w.extractLsb' 17 5).toFin
        (if w.extractLsb' 0 1 = 0#1 then .reg (w.extractLsb' 12 5).toFin else .const (w.extractLsb' 1 16)))

/-- SUB (R152; decision D10 for C): as ADD, of `A` plus the complement of `B` plus one; V for a pair of unlike sign. -/
def Obligations.SubResult : Prop :=
  ∀ (ri rj : Reg) (b : Source) (s : State),
    let A := s.reg rj
    let B := sourceValue b s
    let t33 : BitVec 33 := A.setWidth 33 + (~~~B).setWidth 33 + 1
    let r : Word := t33.extractLsb' 0 32
    (∃ t, exec (.sub ri rj b) s = .next t ∧
      WritesBack s t ri r 0x0F
        (flagBit (t33.getLsbD 32) (r.getLsbD 31)
          (decide (A.getLsbD 31 ≠ B.getLsbD 31 ∧ r.getLsbD 31 ≠ A.getLsbD 31)) (decide (r = 0)) false false)) ∧
    r = A - B

/-- CMP (R153; decisions D10, D11): the six flags of the difference, with GE and L the signed order of the operands; no
register and no other bit of SR changes. -/
def Obligations.CmpResult : Prop :=
  ∀ (rj : Reg) (b : Source) (s : State),
    let A := s.reg rj
    let B := sourceValue b s
    let t33 : BitVec 33 := A.setWidth 33 + (~~~B).setWidth 33 + 1
    let r : Word := t33.extractLsb' 0 32
    ∃ t, exec (.cmp rj b) s = .next t ∧ t = { s with x := t.x, pc := s.pc + 1 } ∧
      (∀ q : Reg, q ≠ 0 → t.reg q = s.reg q) ∧
      ∀ k, (t.reg 0).getLsbD k =
        if k < 6 then
          flagBit (t33.getLsbD 32) (r.getLsbD 31)
            (decide (A.getLsbD 31 ≠ B.getLsbD 31 ∧ r.getLsbD 31 ≠ A.getLsbD 31)) (decide (r = 0))
            (decide (B.toInt ≤ A.toInt)) (decide (A.toInt < B.toInt)) k
        else (s.reg 0).getLsbD k

/-- After ADD and SUB the flags are exact arithmetic's (R161; decision D10 for SUB's C): C of ADD is an unsigned sum of 2^32 or
more, C of SUB an unsigned difference that is not negative, V a signed result that does not fit in 32 bits. -/
def Obligations.ArithmeticFlagsAreExact : Prop :=
  ∀ (ri rj : Reg) (b : Source) (s : State), ri ≠ 0 →
    let A := s.reg rj
    let B := sourceValue b s
    (∃ t, exec (.add ri rj b) s = .next t ∧
      ((t.reg 0).getLsbD 0 = true ↔ 2 ^ 32 ≤ A.toNat + B.toNat) ∧
      ((t.reg 0).getLsbD 2 = true ↔ ¬(-2 ^ 31 ≤ A.toInt + B.toInt ∧ A.toInt + B.toInt < 2 ^ 31))) ∧
    (∃ t, exec (.sub ri rj b) s = .next t ∧
      ((t.reg 0).getLsbD 0 = true ↔ B.toNat ≤ A.toNat) ∧
      ((t.reg 0).getLsbD 2 = true ↔ ¬(-2 ^ 31 ≤ A.toInt - B.toInt ∧ A.toInt - B.toInt < 2 ^ 31)))

/-- CMP's GE equals N = V, and L equals N ≠ V, of the flags just computed (R153, decision D11); exactly one of GE and L is 1
(R142). -/
def Obligations.CompareOrderIsNegativeXorOverflow : Prop :=
  ∀ (rj : Reg) (b : Source) (s : State),
    ∃ t, exec (.cmp rj b) s = .next t ∧
      (t.reg 0).getLsbD 4 = ((t.reg 0).getLsbD 1 == (t.reg 0).getLsbD 2) ∧
      (t.reg 0).getLsbD 5 = ((t.reg 0).getLsbD 1 != (t.reg 0).getLsbD 2) ∧
      (t.reg 0).getLsbD 4 = !(t.reg 0).getLsbD 5

/-- NOT, AND, BIC, OR, XOR (R150, R154 – R158, R160; decisions D9, D12, D34): the bitwise result to `ri`, N and Z of it; C, V,
GE, L and the rest of SR are kept. -/
def Obligations.LogicalResults : Prop :=
  (∀ (ri rj : Reg) (s : State),
    ∃ t, exec (.not ri rj) s = .next t ∧
      WritesBack s t ri (~~~(s.reg rj)) 0x0A
        (flagBit false ((~~~(s.reg rj)).getLsbD 31) false (decide (~~~(s.reg rj) = 0)) false false)) ∧
  ∀ p ∈ ([(Instr.and, fun A B => A &&& B), (Instr.bic, fun A B => A &&& ~~~B), (Instr.or, fun A B => A ||| B),
      (Instr.xor, fun A B => A ^^^ B)] : List ((Reg → Reg → Source → Instr) × (Word → Word → Word))),
    ∀ (ri rj : Reg) (b : Source) (s : State),
      let r := p.2 (s.reg rj) (sourceValue b s)
      ∃ t, exec (p.1 ri rj b) s = .next t ∧
        WritesBack s t ri r 0x0A (flagBit false (r.getLsbD 31) false (decide (r = 0)) false false)

/-- The enable masks (R29, R212; decision D12): `OR R0, R0, #(1 << (6+n))` sets SR.IE[n] and keeps every other bit of SR, and
`BIC R0, R0, #(1 << (6+n))` clears it and keeps every other bit. -/
def Obligations.EnableMasksTouchOneBit : Prop :=
  ∀ (n : Fin 8) (s : State),
    (∃ t, exec (.or 0 0 (.const (1#16 <<< (6 + n.val)))) s = .next t ∧
      ∀ k, (t.reg 0).getLsbD k = if k = 6 + n.val then true else (s.reg 0).getLsbD k) ∧
    (∃ t, exec (.bic 0 0 (.const (1#16 <<< (6 + n.val)))) s = .next t ∧
      ∀ k, (t.reg 0).getLsbD k = if k = 6 + n.val then false else (s.reg 0).getLsbD k)

/-! ## Shifts and rotates -/

/-- SRL, SLL, SRA for every count 0 … 63 (R170 – R175; decisions D9, D13, D14): the n single steps are the logical right, left
and arithmetic right shift by n; N and Z of the result; C and the rest of SR are kept. -/
def Obligations.ShiftResults : Prop :=
  ∀ p ∈ ([(Instr.srl, fun A n => A >>> n), (Instr.sll, fun A n => A <<< n), (Instr.sra, fun A n => A.sshiftRight n)] :
      List ((Reg → Reg → Count → Instr) × (Word → Nat → Word))),
    ∀ (ri rj : Reg) (c : Count) (s : State),
      let r := p.2 (s.reg rj) (countValue c s)
      ∃ t, exec (p.1 ri rj c) s = .next t ∧
        WritesBack s t ri r 0x0A (flagBit false (r.getLsbD 31) false (decide (r = 0)) false false)

/-- RTR and RTL for every count 0 … 63 (R170 – R172, R176, R177; decisions D9, D13, D14): the n single steps are the rotation
by n modulo 32; N and Z of the result; C and the rest of SR are kept. -/
def Obligations.RotateResults : Prop :=
  ∀ p ∈ ([(Instr.rtr, fun A n => A.rotateRight (n % 32)), (Instr.rtl, fun A n => A.rotateLeft (n % 32))] :
      List ((Reg → Reg → Count → Instr) × (Word → Nat → Word))),
    ∀ (ri rj : Reg) (c : Count) (s : State),
      let r := p.2 (s.reg rj) (countValue c s)
      ∃ t, exec (p.1 ri rj c) s = .next t ∧
        WritesBack s t ri r 0x0A (flagBit false (r.getLsbD 31) false (decide (r = 0)) false false)

/-- RRC and RLC for every count 0 … 63 (R170 – R172, R178, R179; decisions D9, D13, D14): the n single steps rotate the 33-bit
word made of C and the operand by n modulo 33; its low word is the result and its top bit the new C; N and Z of the result. -/
def Obligations.RotateThroughCarryResults : Prop :=
  ∀ p ∈ ([(Instr.rrc, fun y n => y.rotateRight (n % 33)), (Instr.rlc, fun y n => y.rotateLeft (n % 33))] :
      List ((Reg → Reg → Count → Instr) × (BitVec 33 → Nat → BitVec 33))),
    ∀ (ri rj : Reg) (c : Count) (s : State),
      let y := p.2 (BitVec.ofBool ((s.reg 0).getLsbD 0) ++ s.reg rj) (countValue c s)
      let r : Word := y.extractLsb' 0 32
      ∃ t, exec (p.1 ri rj c) s = .next t ∧
        WritesBack s t ri r 0x0B (flagBit (y.getLsbD 32) (r.getLsbD 31) false (decide (r = 0)) false false)

/-- RTL by n equals RTR by (32 − n mod 32) mod 32, flags included (R177, corner cases). -/
def Obligations.RotateLeftIsRotateRight : Prop :=
  ∀ (ri rj : Reg) (n : BitVec 6) (s : State),
    exec (.rtl ri rj (.const n)) s = exec (.rtr ri rj (.const (BitVec.ofNat 6 ((32 - n.toNat % 32) % 32)))) s

/-! ## Floating point -/

/-- FA, FS, FM, FD (R192 – R195): the result of the configuration's function of the two operands goes to `ri`; no flag (R191,
decision D9; assumption log 10) and nothing else changes but pc. The functions are free values (R190, decision D15; assumption
log 5): this holds for any six. Format A with opcodes 17 … 20
(decisions D1, D2; a constant is extended by D8). -/
def Obligations.FloatResults : Prop :=
  ∀ (ri rj : Reg) (b : Source) (s : State),
    (exec (.fa ri rj b) s = .next
        { s with x := s.x.set ri.val (config.fp.add (s.reg rj) (sourceValue b s)), pc := s.pc + 1 }) ∧
    (exec (.fs ri rj b) s = .next
        { s with x := s.x.set ri.val (config.fp.sub (s.reg rj) (sourceValue b s)), pc := s.pc + 1 }) ∧
    (exec (.fm ri rj b) s = .next
        { s with x := s.x.set ri.val (config.fp.mul (s.reg rj) (sourceValue b s)), pc := s.pc + 1 }) ∧
    (exec (.fd ri rj b) s = .next
        { s with x := s.x.set ri.val (config.fp.div (s.reg rj) (sourceValue b s)), pc := s.pc + 1 }) ∧
    ∀ p ∈ ([(Instr.fa, 17#5), (Instr.fs, 18#5), (Instr.fm, 19#5), (Instr.fd, 20#5)] :
        List ((Reg → Reg → Source → Instr) × BitVec 5)),
      ∀ w : Word, w.extractLsb' 27 5 = p.2 →
        decode w = .ok (p.1 (w.extractLsb' 22 5).toFin (w.extractLsb' 17 5).toFin
          (if w.extractLsb' 0 1 = 0#1 then .reg (w.extractLsb' 12 5).toFin else .const (w.extractLsb' 1 16)))

/-- FTI and ITF (R196, R197; decision D35): the configuration's conversion of `x[rj]` goes to `ri`; nothing else changes but
pc. -/
def Obligations.ConversionResults : Prop :=
  ∀ (ri rj : Reg) (s : State),
    exec (.fti ri rj) s = .next { s with x := s.x.set ri.val (config.fp.toInt (s.reg rj)), pc := s.pc + 1 } ∧
    exec (.itf ri rj) s = .next { s with x := s.x.set ri.val (config.fp.fromInt (s.reg rj)), pc := s.pc + 1 }

/-- Division by zero under the recommended numerics (R199, from general knowledge; decision D15): a non-zero finite number by
zero is the infinity of the quotient's sign, and 0/0 is the quiet NaN 0x7FC00000. -/
def Obligations.RecommendedDivisionByZero : Prop :=
  ∀ (fp : FP), Recommended fp → ∀ (a b : Word) (p q : Bool) (m e f : Nat),
    binary32 a = .num p m e → binary32 b = .num q 0 f →
    (m ≠ 0 → fp.div a b = if p = q then 0x7F800000 else 0xFF800000) ∧ (m = 0 → fp.div a b = 0x7FC00000)

/-- Addition and multiplication commute under the recommended numerics, on operands that are no NaN (R199; decision D15). -/
def Obligations.RecommendedSumsCommute : Prop :=
  ∀ (fp : FP), Recommended fp → ∀ a b : Word, ¬isNaN32 a → ¬isNaN32 b →
    fp.add a b = fp.add b a ∧ fp.mul a b = fp.mul b a

/-- FTI's rounding under the recommended numerics (R199; decisions D15, D35): a finite number `± m · 2^e / 2^149` whose integer
part fits in a signed word is converted to that integer part, toward zero; -2^31 fits. -/
def Obligations.RecommendedTruncation : Prop :=
  ∀ (fp : FP), Recommended fp → ∀ (a : Word) (neg : Bool) (m e : Nat),
    binary32 a = .num neg m e → (m * 2 ^ e / 2 ^ 149 < 2 ^ 31 ∨ neg = true ∧ m * 2 ^ e / 2 ^ 149 = 2 ^ 31) →
    (fp.toInt a).toInt = if neg then -((m * 2 ^ e / 2 ^ 149 : Nat) : Int) else ((m * 2 ^ e / 2 ^ 149 : Nat) : Int)

/-! ## What instructions leave unchanged -/

/-- Registers: every instruction but RETI keeps each of R1 … R31 that it does not name as its destination, so that no addressing
mode modifies its index register, before or after (R22, R63, R99); RETI keeps R24 … R31. -/
def Obligations.RegisterFrame : Prop :=
  ∀ (i : Instr) (s t : State), exec i s = .next t →
    (i ≠ .reti → ∀ q : Reg, q ≠ 0 → destOf i ≠ some q → t.reg q = s.reg q) ∧
    (i = .reti → ∀ q : Reg, 24 ≤ q.val → t.reg q = s.reg q)

/-- SR: an instruction whose destination is not R0 changes no bit of SR but those R27 names for it (decision D9): RET and RETI,
which restore SR, apart, SR.IE and SR[31:14] are never a side effect, and only CMP writes GE and L. -/
def Obligations.StatusFrame : Prop :=
  ∀ (i : Instr) (s t : State), exec i s = .next t → destOf i ≠ some 0 →
    ∀ k, (sideBits i).getLsbD k = false → (t.reg 0).getLsbD k = (s.reg 0).getLsbD k

/-- DM: every word reads as before but, for ST, the word at its effective address; and that one too where it is a port (R52,
R57). -/
def Obligations.DataMemoryFrame : Prop :=
  ∀ (i : Instr) (s t : State), exec i s = .next t → ∀ a : Nat,
    (∀ ri m, i = .st ri m → a ≠ (effAddr m s).toNat ∨ IsPort (effAddr m s).toNat) →
    Memory.read t.dm a = Memory.read s.dm a

/-- The hardware stack: only PUSH, POP, CALL, RET and RETI change it (R32), and none changes an entry that is in use before
and after. -/
def Obligations.StackFrame : Prop :=
  ∀ (i : Instr) (s t : State), exec i s = .next t →
    ((∀ src, i ≠ .push src) → (∀ ri, i ≠ .pop ri) → (∀ m, i ≠ .call m) → i ≠ .ret → i ≠ .reti →
      t.hs = s.hs ∧ t.sp = s.sp) ∧
    ∀ k, k < s.sp.val → k < t.sp.val → t.hs[k]? = s.hs[k]?

/-- The interrupt state: no instruction writes the shadow file (R33), only RETI changes `in_isr` (R34, decision D20), none writes
PM (R52). That an instruction leaves the queued request levels alone is the model's choice (assumption logs 3, 4, 8): R213 leaves
open whether an access to a device changes a line. It says nothing of the levels beyond the queue, which a port read that draws
shifts. -/
def Obligations.InterruptStateFrame : Prop :=
  ∀ (i : Instr) (s t : State), exec i s = .next t →
    t.sh = s.sh ∧ (i ≠ .reti → t.inIsr = s.inIsr) ∧ t.pm = s.pm ∧ t.irqIn = s.irqIn

/-- The ports: an instruction that is no LD or ST with a port for its address makes no access and takes no answer; one that is
makes exactly one access, in program order after the earlier ones (R58, R65; decisions D24, D25). The record of reads, the queue
of answers and the draws are the model's choice (assumption logs 4, 8). -/
def Obligations.PortFrame : Prop :=
  ∀ (i : Instr) (s t : State), exec i s = .next t →
    ((∀ ri m, i = .ld ri m → ¬IsPort (effAddr m s).toNat) → (∀ ri m, i = .st ri m → ¬IsPort (effAddr m s).toNat) →
      t.events = s.events ∧ t.portIn = s.portIn ∧ t.draws = s.draws) ∧
    (∀ ri m, i = .ld ri m → IsPort (effAddr m s).toNat →
      t.events = s.events ++ [.read (effAddr m s) (t.reg ri)]) ∧
    (∀ ri m, i = .st ri m → IsPort (effAddr m s).toNat →
      t.events = s.events ++ [.write (effAddr m s) (s.reg ri)] ∧ t.portIn = s.portIn ∧ t.draws = s.draws)

/-- When an instruction stops (R225; decisions D17, D20): only PUSH and CALL on a full stack, POP, RET and RETI on an empty one,
and RETI outside a service routine; every other instruction completes in every state, and none is refused. That none stops on
UnwrittenRead, which R225 lists for any instruction, is the model's choice: registers, stack and shadow entries hold values from
reset on (assumption log 1), and so do the words of DM (assumption log 2). -/
def Obligations.InstructionsStopOnlyOnTheStack : Prop :=
  ∀ (i : Instr) (s : State),
    (∀ f, exec i s = .fault f →
      (f = .stackOverflow ∧ ((∃ src, i = .push src ∧ s.sp.val = 16) ∨ ∃ m, i = .call m ∧ 15 ≤ s.sp.val)) ∨
      (f = .stackUnderflow ∧ ((∃ ri, i = .pop ri ∧ s.sp.val = 0) ∨ ((i = .ret ∨ i = .reti) ∧ s.sp.val < 2))) ∨
      (f = .retiOutsideIsr ∧ i = .reti ∧ s.inIsr = false)) ∧
    (∀ r, exec i s ≠ .refused r) ∧
    ((∀ src, i ≠ .push src) → (∀ ri, i ≠ .pop ri) → (∀ m, i ≠ .call m) → i ≠ .ret → i ≠ .reti →
      ∃ t, exec i s = .next t)
end

