-- ==== Sys2Proof/Laws/Decode.lean ====
section
/-! SUPPORT. What each field of an encoded word reads as, format by format, and the opcode map read backwards. -/

namespace Sys2Proof

/-! ## The opcode map (R89) -/

/-- Each group's opcode number is read back as that group. -/
@[simp] theorem groupOf_opcode (g : OpGroup) : groupOf (config.opcode g) = some g := by
  cases g <;> rfl

/-- The groups' opcode numbers are distinct. -/
theorem opcode_injective {g h : OpGroup} (e : config.opcode g = config.opcode h) : g = h :=
  Option.some.inj (by rw [← groupOf_opcode g, e, groupOf_opcode h])

/-- An opcode number read as a group is that group's. -/
theorem opcode_of_groupOf {op : BitVec 5} {g : OpGroup} (h : groupOf op = some g) : config.opcode g = op := by
  simpa using List.find?_some h

/-- The unassigned opcode numbers are 23 … 31 (R89, R93). -/
theorem groupOf_none (op : BitVec 5) : groupOf op = none ↔ 23 ≤ op.toNat := by
  revert op; decide

/-- A word with a group's opcode is decoded as that group's. -/
theorem decode_of_opcode {w : Word} (g : OpGroup) (h : w.extractLsb' 27 5 = config.opcode g) : decode w = decodeGroup w g := by
  have hg : groupOf (opField w) = some g := by
    rw [← groupOf_opcode g]
    exact congrArg groupOf h
  simp [decode, hg]

@[simp] theorem toFin_regBits (r : Reg) : (regBits r).toFin = r := rfl

/-! ## The fields of an appended word -/

/-- A field wholly in the upper part of an append. -/
theorem field_high {m n k : Nat} (x : BitVec m) (y : BitVec n) (lo : Nat) (h : n ≤ lo) :
    (x ++ y).extractLsb' lo k = x.extractLsb' (lo - n) k := by
  apply BitVec.eq_of_getLsbD_eq
  intro i hi
  simp only [BitVec.getLsbD_extractLsb', hi, decide_true, Bool.true_and, BitVec.getLsbD_append]
  rw [if_neg (by omega)]
  congr 1
  omega

/-- A field wholly in the lower part of an append. -/
theorem field_low {m n k : Nat} (x : BitVec m) (y : BitVec n) (lo : Nat) (h : lo + k ≤ n) :
    (x ++ y).extractLsb' lo k = y.extractLsb' lo k := by
  apply BitVec.eq_of_getLsbD_eq
  intro i hi
  simp only [BitVec.getLsbD_extractLsb', hi, decide_true, Bool.true_and, BitVec.getLsbD_append]
  rw [if_pos (by omega)]

/-- The whole of a bit vector as a field. -/
theorem field_all {n : Nat} (x : BitVec n) : x.extractLsb' 0 n = x := by
  apply BitVec.eq_of_getLsbD_eq
  intro i hi
  simp [hi]

/-! ## Formats M and T (R82, R83) -/

section FormatM
variable (g : OpGroup) (ri rj : Reg) (ctl : BitVec 1) (low : BitVec 16)

@[simp] theorem opField_formatM : opField (formatM g ri rj ctl low) = config.opcode g := by
  simp only [opField, formatM]
  rw [field_high _ _ _ (by omega), field_high _ _ _ (by omega), field_high _ _ _ (by omega), field_high _ _ _ (by omega)]
  exact field_all _

@[simp] theorem riField_formatM : riField (formatM g ri rj ctl low) = ri := by
  simp only [riField, formatM]
  rw [field_high _ _ _ (by omega), field_high _ _ _ (by omega), field_high _ _ _ (by omega), field_low _ _ _ (by omega)]
  exact congrArg BitVec.toFin (field_all (regBits ri))

@[simp] theorem rjField_formatM : rjField (formatM g ri rj ctl low) = rj := by
  simp only [rjField, formatM]
  rw [field_high _ _ _ (by omega), field_high _ _ _ (by omega), field_low _ _ _ (by omega)]
  exact congrArg BitVec.toFin (field_all (regBits rj))

@[simp] theorem ctlField_formatM : ctlField (formatM g ri rj ctl low) = ctl := by
  simp only [ctlField, formatM]
  rw [field_high _ _ _ (by omega), field_low _ _ _ (by omega)]
  exact field_all _

@[simp] theorem low16Field_formatM : low16Field (formatM g ri rj ctl low) = low := by
  simp only [low16Field, formatM]
  rw [field_low _ _ _ (by omega)]
  exact field_all _

end FormatM

/-! ## Format J (R84) -/

section FormatJ
variable (g : OpGroup) (ri : Reg) (cc : BitVec 4) (ctl : BitVec 1) (addr16 : Addr)

@[simp] theorem opField_formatJ : opField (formatJ g ri cc ctl addr16) = config.opcode g := by
  simp only [opField, formatJ]
  rw [field_high _ _ _ (by omega), field_high _ _ _ (by omega), field_high _ _ _ (by omega), field_high _ _ _ (by omega),
    field_high _ _ _ (by omega)]
  exact field_all _

@[simp] theorem riField_formatJ : riField (formatJ g ri cc ctl addr16) = ri := by
  simp only [riField, formatJ]
  rw [field_high _ _ _ (by omega), field_high _ _ _ (by omega), field_high _ _ _ (by omega), field_high _ _ _ (by omega),
    field_low _ _ _ (by omega)]
  exact congrArg BitVec.toFin (field_all (regBits ri))

@[simp] theorem ccField_formatJ : ccField (formatJ g ri cc ctl addr16) = cc := by
  simp only [ccField, formatJ]
  rw [field_high _ _ _ (by omega), field_high _ _ _ (by omega), field_high _ _ _ (by omega), field_low _ _ _ (by omega)]
  exact field_all _

@[simp] theorem ctlField_formatJ : ctlField (formatJ g ri cc ctl addr16) = ctl := by
  simp only [ctlField, formatJ]
  rw [field_high _ _ _ (by omega), field_low _ _ _ (by omega)]
  exact field_all _

@[simp] theorem low16Field_formatJ : low16Field (formatJ g ri cc ctl addr16) = addr16 := by
  simp only [low16Field, formatJ]
  rw [field_low _ _ _ (by omega)]
  exact field_all _

end FormatJ

/-! ## Formats A and S (R85, R86) -/

section FormatA
variable (g : OpGroup) (ri rj : Reg) (tail : BitVec 17)

@[simp] theorem opField_formatA : opField (formatA g ri rj tail) = config.opcode g := by
  simp only [opField, formatA]
  rw [field_high _ _ _ (by omega), field_high _ _ _ (by omega), field_high _ _ _ (by omega)]
  exact field_all _

@[simp] theorem riField_formatA : riField (formatA g ri rj tail) = ri := by
  simp only [riField, formatA]
  rw [field_high _ _ _ (by omega), field_high _ _ _ (by omega), field_low _ _ _ (by omega)]
  exact congrArg BitVec.toFin (field_all (regBits ri))

@[simp] theorem rjField_formatA : rjField (formatA g ri rj tail) = rj := by
  simp only [rjField, formatA]
  rw [field_high _ _ _ (by omega), field_low _ _ _ (by omega)]
  exact congrArg BitVec.toFin (field_all (regBits rj))

/-- A field below Rj is that field of the 17 bits below Rj. -/
theorem tail_formatA (lo k : Nat) (h : lo + k ≤ 17) : (formatA g ri rj tail).extractLsb' lo k = tail.extractLsb' lo k := by
  simp only [formatA]
  exact field_low _ _ _ h

/-- The operand of format A is read back (R85). -/
@[simp] theorem sourceA_formatA (b : Source) : sourceA (formatA g ri rj (tailA b)) = b := by
  have hk : config.rkPos = 12 := rfl
  simp only [sourceA, ctl0Field, rkFieldA, constFieldA, hk, tail_formatA _ _ _ _ 0 1 (by omega),
    tail_formatA _ _ _ _ 12 5 (by omega), tail_formatA _ _ _ _ 1 16 (by omega)]
  cases b with
  | reg rk => revert rk; decide
  | const c =>
    have h0 : (tailA (.const c)).extractLsb' 0 1 = 1#1 := by
      simp only [tailA]
      rw [field_low _ _ _ (by omega)]
      exact field_all _
    have h1 : (tailA (.const c)).extractLsb' 1 16 = c := by
      simp only [tailA]
      rw [field_high _ _ _ (by omega)]
      exact field_all _
    rw [h0, h1]
    rfl

/-- The Control of format S is read back (R86). -/
@[simp] theorem sctlField_formatA (sctl : BitVec 3) (n : Count) :
    sctlField (formatA g ri rj (tailS sctl n)) = sctl := by
  simp only [sctlField, tail_formatA _ _ _ _ 1 3 (by omega)]
  cases n with
  | reg rk =>
    simp only [tailS]
    rw [field_high _ _ _ (by omega), field_low _ _ _ (by omega)]
    exact field_all _
  | const n =>
    simp only [tailS]
    rw [field_high _ _ _ (by omega), field_low _ _ _ (by omega)]
    exact field_all _

/-- The count of format S is read back (R86). -/
@[simp] theorem countS_formatA (sctl : BitVec 3) (n : Count) : countS (formatA g ri rj (tailS sctl n)) = n := by
  simp only [countS, ctl0Field, rkFieldS, constFieldS, tail_formatA _ _ _ _ 0 1 (by omega),
    tail_formatA _ _ _ _ 12 5 (by omega), tail_formatA _ _ _ _ 11 6 (by omega)]
  cases n with
  | reg rk =>
    have h0 : (tailS sctl (.reg rk)).extractLsb' 0 1 = 0#1 := by
      simp only [tailS]
      rw [field_low _ _ _ (by omega)]
      exact field_all _
    have h1 : (tailS sctl (.reg rk)).extractLsb' 12 5 = regBits rk := by
      simp only [tailS]
      rw [field_high _ _ _ (by omega), field_high _ _ _ (by omega), field_high _ _ _ (by omega)]
      exact field_all _
    rw [h0, h1]
    rfl
  | const n =>
    have h0 : (tailS sctl (.const n)).extractLsb' 0 1 = 1#1 := by
      simp only [tailS]
      rw [field_low _ _ _ (by omega)]
      exact field_all _
    have h1 : (tailS sctl (.const n)).extractLsb' 11 6 = n := by
      simp only [tailS]
      rw [field_high _ _ _ (by omega), field_high _ _ _ (by omega), field_high _ _ _ (by omega)]
      exact field_all _
    rw [h0, h1]
    rfl

end FormatA

end Sys2Proof
end

