-- ==== Sys2Proof/Laws/Flags.lean ====
section
/-! SUPPORT. The laws of SR's bits, of a masked flag update, and of the sum and the difference. -/

namespace Sys2Proof.Machine

/-! ## `flagWord`: each flag in its place (R26) -/

/-- The six flag values in their places, and nothing above them. -/
theorem flagWord_bit (f : FlagValues) (k : Nat) :
    (flagWord f).getLsbD k =
      if k = 0 then f.c else if k = 1 then f.n else if k = 2 then f.v else if k = 3 then f.z
      else if k = 4 then f.ge else if k = 5 then f.l else false := by
  obtain ⟨c, n, v, z, ge, l⟩ := f
  by_cases hk : k < 32
  · have all : ∀ k : Fin 32, (flagWord ⟨c, n, v, z, ge, l⟩).getLsbD k.val =
        if k.val = 0 then c else if k.val = 1 then n else if k.val = 2 then v else if k.val = 3 then z
        else if k.val = 4 then ge else if k.val = 5 then l else false := by
      revert c n v z ge l
      decide
    exact all ⟨k, hk⟩
  · rw [BitVec.getLsbD_of_ge _ _ (by omega)]
    split_ifs <;> first | omega | rfl

/-! ## `mergeFlags` -/

/-- Inside the mask the new flag value, outside it the old bit. -/
theorem mergeFlags_bit (mask : Word) (f : FlagValues) (sr : Word) (k : Nat) :
    (mergeFlags mask f sr).getLsbD k = if mask.getLsbD k then (flagWord f).getLsbD k else sr.getLsbD k := by
  by_cases hk : k < 32
  · unfold mergeFlags
    simp only [BitVec.getLsbD_or, BitVec.getLsbD_and, BitVec.getLsbD_not, hk, decide_true, Bool.true_and]
    cases mask.getLsbD k <;> simp
  · simp [BitVec.getLsbD_of_ge _ _ (Nat.le_of_not_lt hk)]

/-- A mask of the low six bits keeps every bit above them. -/
theorem mergeFlags_high (mask : Word) (f : FlagValues) (sr : Word) {k : Nat} (h : mask.getLsbD k = false) :
    (mergeFlags mask f sr).getLsbD k = sr.getLsbD k := by
  simp [mergeFlags_bit, h]

/-- ADD and SUB write C, N, V, Z: bits 0 … 3 (R27). -/
theorem flagPolicy_arith (k : Nat) : (config.flagPolicy .arith).getLsbD k = decide (k < 4) := by
  by_cases hk : k < 32
  · revert k; decide
  · rw [BitVec.getLsbD_of_ge _ _ (by omega)]; simp; omega

/-- CMP writes C, N, V, Z, GE, L: bits 0 … 5 (R27). -/
theorem flagPolicy_compare (k : Nat) : (config.flagPolicy .compare).getLsbD k = decide (k < 6) := by
  by_cases hk : k < 32
  · revert k; decide
  · rw [BitVec.getLsbD_of_ge _ _ (by omega)]; simp; omega

/-- The logical instructions write N and Z: bits 1 and 3 (R27). -/
theorem flagPolicy_logical (k : Nat) : (config.flagPolicy .logical).getLsbD k = (decide (k = 1) || decide (k = 3)) := by
  by_cases hk : k < 32
  · revert k; decide
  · rw [BitVec.getLsbD_of_ge _ _ (by omega)]; simp; omega

/-- SRL, SLL, SRA, RTR, RTL write N and Z (R27). -/
theorem flagPolicy_shift (k : Nat) : (config.flagPolicy .shift).getLsbD k = (decide (k = 1) || decide (k = 3)) := by
  by_cases hk : k < 32
  · revert k; decide
  · rw [BitVec.getLsbD_of_ge _ _ (by omega)]; simp; omega

/-- RRC and RLC write C, N and Z (R27). -/
theorem flagPolicy_rotateCarry (k : Nat) :
    (config.flagPolicy .rotateCarry).getLsbD k = (decide (k = 0) || decide (k = 1) || decide (k = 3)) := by
  by_cases hk : k < 32
  · revert k; decide
  · rw [BitVec.getLsbD_of_ge _ _ (by omega)]; simp; omega

/-- The FPU instructions write no flag (R27, R191). -/
@[simp] theorem flagPolicy_fpu : config.flagPolicy .fpu = 0 := rfl

/-- LD, ST, CPY, PUSH and POP write no flag (R27). -/
@[simp] theorem flagPolicy_transfer : config.flagPolicy .transfer = 0 := rfl

/-- The jumps and CALL write no flag (R27). -/
@[simp] theorem flagPolicy_flow : config.flagPolicy .flow = 0 := rfl

/-! ## The sum and the difference -/

/-- The sum is the sum modulo 2^32 (R161). -/
@[simp] theorem addFlags_fst (a b : Word) : (addFlags a b).1 = a + b := by
  simp only [addFlags]
  apply BitVec.eq_of_toNat_eq
  simp only [BitVec.toNat_setWidth, BitVec.toNat_add]
  omega

/-- The difference is the difference modulo 2^32 (R152). -/
@[simp] theorem subFlags_fst (a b : Word) : (subFlags a b).1 = a - b := by
  simp only [subFlags]
  apply BitVec.eq_of_toNat_eq
  have ha := a.isLt
  have hb := b.isLt
  have h1 : (1 : BitVec 33).toNat = 1 := rfl
  simp only [BitVec.toNat_setWidth, BitVec.toNat_add, BitVec.toNat_sub, BitVec.toNat_not, h1]
  omega

/-- C after the sum is the carry out of bit 31. -/
theorem addFlags_c (a b : Word) : (addFlags a b).2.c = decide (2 ^ 32 ≤ a.toNat + b.toNat) := by
  simp only [addFlags]
  have ha := a.isLt
  have hb := b.isLt
  rw [BitVec.getLsbD, Nat.testBit, BitVec.toNat_add, BitVec.toNat_setWidth, BitVec.toNat_setWidth]
  simp only [Nat.shiftRight_eq_div_pow, Nat.one_and_eq_mod_two]
  rw [Bool.eq_iff_iff]
  simp only [bne_iff_ne, decide_eq_true_eq]
  omega

/-- C after the difference is 1 when there is no borrow (decision D10). -/
theorem subFlags_c (a b : Word) : (subFlags a b).2.c = decide (b.toNat ≤ a.toNat) := by
  have hc : config.subCarry = .noBorrow := rfl
  simp only [subFlags, hc]
  have ha := a.isLt
  have hb := b.isLt
  have h1 : (1 : BitVec 33).toNat = 1 := rfl
  rw [BitVec.getLsbD, Nat.testBit, BitVec.toNat_add, BitVec.toNat_add, BitVec.toNat_setWidth, BitVec.toNat_setWidth,
    BitVec.toNat_not, h1]
  simp only [Nat.shiftRight_eq_div_pow, Nat.one_and_eq_mod_two]
  rw [Bool.eq_iff_iff]
  simp only [bne_iff_ne, decide_eq_true_eq]
  omega

end Sys2Proof.Machine
end

