-- ==== Sys2Proof/Laws/Memory.lean ====
section
/-! SUPPORT. The laws of a memory: a read after a write, and the canonical form kept by every write. -/

namespace Sys2Proof.Machine

/-- The written word is read back. -/
@[simp] theorem Memory.read_write_same (m : Memory) (a : Nat) (v : Word) : Memory.read (Memory.write m a v) a = some v := by
  induction m with
  | nil => simp [Memory.write, Memory.read]
  | cons c rest ih =>
    obtain ⟨k, w⟩ := c
    unfold Memory.write
    split_ifs with h1 h2
    · simp [Memory.read]
    · simp [Memory.read]
    · have h3 : k ≠ a := fun e => h2 e.symm
      simp [Memory.read, h3, ih]

/-- Every other address reads as before. -/
theorem Memory.read_write_other (m : Memory) {a b : Nat} (v : Word) (h : a ≠ b) :
    Memory.read (Memory.write m a v) b = Memory.read m b := by
  induction m with
  | nil => simp [Memory.write, Memory.read, h]
  | cons c rest ih =>
    obtain ⟨k, w⟩ := c
    unfold Memory.write
    split_ifs with h1 h2
    · simp [Memory.read, h]
    · subst h2
      simp [Memory.read, h]
    · simp only [Memory.read, ih]

/-- The addresses listed after a write: the written one and those listed before. -/
theorem Memory.mem_write {m : Memory} {a : Nat} {v : Word} {c : Cell} (h : c ∈ Memory.write m a v) :
    c = (a, v) ∨ c ∈ m := by
  induction m with
  | nil => simpa [Memory.write] using h
  | cons d rest ih =>
    obtain ⟨k, w⟩ := d
    unfold Memory.write at h
    split_ifs at h with h1 h2
    · simpa using h
    · rcases List.mem_cons.1 h with h3 | h3
      · exact .inl h3
      · exact .inr (List.mem_cons_of_mem _ h3)
    · rcases List.mem_cons.1 h with h3 | h3
      · exact .inr (h3 ▸ List.mem_cons_self)
      · exact (ih h3).imp_right (List.mem_cons_of_mem _)

/-- A write keeps the addresses strictly rising. -/
theorem Memory.write_rising {m : Memory} (a : Nat) (v : Word) (h : m.Pairwise (fun p q => p.1 < q.1)) :
    (Memory.write m a v).Pairwise (fun p q => p.1 < q.1) := by
  induction m with
  | nil => simp [Memory.write]
  | cons d rest ih =>
    obtain ⟨k, w⟩ := d
    obtain ⟨hk, hr⟩ := List.pairwise_cons.1 h
    unfold Memory.write
    split_ifs with h1 h2
    · refine List.pairwise_cons.2 ⟨?_, h⟩
      intro c hc
      rcases List.mem_cons.1 hc with rfl | hc
      · exact h1
      · exact lt_trans h1 (hk c hc)
    · subst h2
      exact List.pairwise_cons.2 ⟨hk, hr⟩
    · refine List.pairwise_cons.2 ⟨?_, ih hr⟩
      intro c hc
      rcases Memory.mem_write hc with rfl | hc
      · exact lt_of_le_of_ne (not_lt.1 h1) (fun e => h2 e.symm)
      · exact hk c hc

/-- A write to a 16-bit address keeps the canonical form. -/
theorem Memory.write_wf {m : Memory} (a : Addr) (v : Word) (h : Memory.wf m) : Memory.wf (Memory.write m a.toNat v) := by
  refine ⟨Memory.write_rising _ _ h.1, ?_⟩
  intro c hc
  rcases Memory.mem_write hc with rfl | hc
  · exact a.isLt
  · exact h.2 c hc

/-- The empty memory is in canonical form. -/
theorem Memory.wf_nil : Memory.wf [] := by simp [Memory.wf]

/-- A sequence of writes keeps the canonical form. -/
theorem Memory.foldl_write_wf (image : List (Addr × Word)) {m : Memory} (h : Memory.wf m) :
    Memory.wf (image.foldl (fun m c => Memory.write m c.1.toNat c.2) m) := by
  induction image generalizing m with
  | nil => exact h
  | cons c rest ih => exact ih (Memory.write_wf c.1 c.2 h)

end Sys2Proof.Machine
end

