-- ==== Sys2Proof/Laws/State.lean ====
section
/-! SUPPORT. One lemma per field per named update of the state, so that no later proof unfolds a record update. -/

namespace Sys2Proof.Machine

/-! ## `setReg` -/

@[simp] theorem State.setReg_x (s : State) (r : Reg) (v : Word) : (s.setReg r v).x = s.x.set r.val v := rfl
@[simp] theorem State.setReg_pc (s : State) (r : Reg) (v : Word) : (s.setReg r v).pc = s.pc := rfl
@[simp] theorem State.setReg_hs (s : State) (r : Reg) (v : Word) : (s.setReg r v).hs = s.hs := rfl
@[simp] theorem State.setReg_sp (s : State) (r : Reg) (v : Word) : (s.setReg r v).sp = s.sp := rfl
@[simp] theorem State.setReg_sh (s : State) (r : Reg) (v : Word) : (s.setReg r v).sh = s.sh := rfl
@[simp] theorem State.setReg_inIsr (s : State) (r : Reg) (v : Word) : (s.setReg r v).inIsr = s.inIsr := rfl
@[simp] theorem State.setReg_dm (s : State) (r : Reg) (v : Word) : (s.setReg r v).dm = s.dm := rfl
@[simp] theorem State.setReg_pm (s : State) (r : Reg) (v : Word) : (s.setReg r v).pm = s.pm := rfl
@[simp] theorem State.setReg_irqIn (s : State) (r : Reg) (v : Word) : (s.setReg r v).irqIn = s.irqIn := rfl
@[simp] theorem State.setReg_portIn (s : State) (r : Reg) (v : Word) : (s.setReg r v).portIn = s.portIn := rfl
@[simp] theorem State.setReg_events (s : State) (r : Reg) (v : Word) : (s.setReg r v).events = s.events := rfl
@[simp] theorem State.setReg_draws (s : State) (r : Reg) (v : Word) : (s.setReg r v).draws = s.draws := rfl

/-- Reading a register after a write: the written value there, the old value elsewhere. -/
theorem State.reg_setReg (s : State) (r q : Reg) (v : Word) : (s.setReg r v).reg q = if r = q then v else s.reg q := by
  simp only [State.reg, State.setReg_x, Vector.getElem_set, Fin.ext_iff]

@[simp] theorem State.reg_setReg_same (s : State) (r : Reg) (v : Word) : (s.setReg r v).reg r = v := by
  simp [State.reg_setReg]

theorem State.reg_setReg_ne (s : State) {r q : Reg} (v : Word) (h : r ≠ q) : (s.setReg r v).reg q = s.reg q := by
  simp [State.reg_setReg, h]

/-! ## `setSr` and `advance`, in terms of `setReg` and `jump` -/

@[simp] theorem State.setSr_eq (s : State) (v : Word) : s.setSr v = s.setReg 0 v := rfl

@[simp] theorem State.advance_eq (s : State) : s.advance = s.jump (s.pc + 1) := rfl

theorem State.sr_eq (s : State) : s.sr = s.reg 0 := rfl

@[simp] theorem State.npc_eq (s : State) : s.npc = s.pc + 1 := rfl

@[simp] theorem State.pcValue_eq (s : State) : s.pcValue = s.pc + 1 := rfl

/-! ## `jump` -/

@[simp] theorem State.jump_x (s : State) (t : Addr) : (s.jump t).x = s.x := rfl
@[simp] theorem State.jump_pc (s : State) (t : Addr) : (s.jump t).pc = t := rfl
@[simp] theorem State.jump_hs (s : State) (t : Addr) : (s.jump t).hs = s.hs := rfl
@[simp] theorem State.jump_sp (s : State) (t : Addr) : (s.jump t).sp = s.sp := rfl
@[simp] theorem State.jump_sh (s : State) (t : Addr) : (s.jump t).sh = s.sh := rfl
@[simp] theorem State.jump_inIsr (s : State) (t : Addr) : (s.jump t).inIsr = s.inIsr := rfl
@[simp] theorem State.jump_dm (s : State) (t : Addr) : (s.jump t).dm = s.dm := rfl
@[simp] theorem State.jump_pm (s : State) (t : Addr) : (s.jump t).pm = s.pm := rfl
@[simp] theorem State.jump_irqIn (s : State) (t : Addr) : (s.jump t).irqIn = s.irqIn := rfl
@[simp] theorem State.jump_portIn (s : State) (t : Addr) : (s.jump t).portIn = s.portIn := rfl
@[simp] theorem State.jump_events (s : State) (t : Addr) : (s.jump t).events = s.events := rfl
@[simp] theorem State.jump_draws (s : State) (t : Addr) : (s.jump t).draws = s.draws := rfl
@[simp] theorem State.reg_jump (s : State) (t : Addr) (r : Reg) : (s.jump t).reg r = s.reg r := rfl

/-! ## `saveShadow` and `restoreShadow` -/

@[simp] theorem State.saveShadow_x (s : State) : s.saveShadow.x = s.x := by simp only [State.saveShadow]
@[simp] theorem State.saveShadow_pc (s : State) : s.saveShadow.pc = s.pc := by simp only [State.saveShadow]
@[simp] theorem State.saveShadow_hs (s : State) : s.saveShadow.hs = s.hs := by simp only [State.saveShadow]
@[simp] theorem State.saveShadow_sp (s : State) : s.saveShadow.sp = s.sp := by simp only [State.saveShadow]
@[simp] theorem State.saveShadow_inIsr (s : State) : s.saveShadow.inIsr = s.inIsr := by simp only [State.saveShadow]
@[simp] theorem State.saveShadow_dm (s : State) : s.saveShadow.dm = s.dm := by simp only [State.saveShadow]
@[simp] theorem State.saveShadow_pm (s : State) : s.saveShadow.pm = s.pm := by simp only [State.saveShadow]
@[simp] theorem State.saveShadow_irqIn (s : State) : s.saveShadow.irqIn = s.irqIn := by simp only [State.saveShadow]
@[simp] theorem State.saveShadow_portIn (s : State) : s.saveShadow.portIn = s.portIn := by simp only [State.saveShadow]
@[simp] theorem State.saveShadow_events (s : State) : s.saveShadow.events = s.events := by simp only [State.saveShadow]
@[simp] theorem State.saveShadow_draws (s : State) : s.saveShadow.draws = s.draws := by simp only [State.saveShadow]
@[simp] theorem State.restoreShadow_pc (s : State) : s.restoreShadow.pc = s.pc := by simp only [State.restoreShadow]
@[simp] theorem State.restoreShadow_hs (s : State) : s.restoreShadow.hs = s.hs := by simp only [State.restoreShadow]
@[simp] theorem State.restoreShadow_sp (s : State) : s.restoreShadow.sp = s.sp := by simp only [State.restoreShadow]
@[simp] theorem State.restoreShadow_sh (s : State) : s.restoreShadow.sh = s.sh := by simp only [State.restoreShadow]
@[simp] theorem State.restoreShadow_inIsr (s : State) : s.restoreShadow.inIsr = s.inIsr := by simp only [State.restoreShadow]
@[simp] theorem State.restoreShadow_dm (s : State) : s.restoreShadow.dm = s.dm := by simp only [State.restoreShadow]
@[simp] theorem State.restoreShadow_pm (s : State) : s.restoreShadow.pm = s.pm := by simp only [State.restoreShadow]
@[simp] theorem State.restoreShadow_irqIn (s : State) : s.restoreShadow.irqIn = s.irqIn := by simp only [State.restoreShadow]
@[simp] theorem State.restoreShadow_portIn (s : State) : s.restoreShadow.portIn = s.portIn := by simp only [State.restoreShadow]
@[simp] theorem State.restoreShadow_events (s : State) : s.restoreShadow.events = s.events := by simp only [State.restoreShadow]
@[simp] theorem State.restoreShadow_draws (s : State) : s.restoreShadow.draws = s.draws := by simp only [State.restoreShadow]

/-- The shadow file after the copy (R216). -/
theorem State.saveShadow_sh_get (s : State) (i : Nat) (h : i < 24) : s.saveShadow.sh[i] = s.x[i] := by
  simp [State.saveShadow]

/-- The register file after the restore (R146): R0 … R23 from the shadow file, R24 … R31 kept. -/
theorem State.restoreShadow_reg (s : State) (r : Reg) :
    s.restoreShadow.reg r = if h : r.val < 24 then s.sh[r.val] else s.reg r := by
  simp [State.restoreShadow, State.reg]

/-! ## `sampled` -/

@[simp] theorem State.sampled_x (s : State) : s.sampled.x = s.x := by
  unfold State.sampled; split <;> rfl
@[simp] theorem State.sampled_pc (s : State) : s.sampled.pc = s.pc := by
  unfold State.sampled; split <;> rfl
@[simp] theorem State.sampled_hs (s : State) : s.sampled.hs = s.hs := by
  unfold State.sampled; split <;> rfl
@[simp] theorem State.sampled_sp (s : State) : s.sampled.sp = s.sp := by
  unfold State.sampled; split <;> rfl
@[simp] theorem State.sampled_sh (s : State) : s.sampled.sh = s.sh := by
  unfold State.sampled; split <;> rfl
@[simp] theorem State.sampled_inIsr (s : State) : s.sampled.inIsr = s.inIsr := by
  unfold State.sampled; split <;> rfl
@[simp] theorem State.sampled_dm (s : State) : s.sampled.dm = s.dm := by
  unfold State.sampled; split <;> rfl
@[simp] theorem State.sampled_pm (s : State) : s.sampled.pm = s.pm := by
  unfold State.sampled; split <;> rfl
@[simp] theorem State.sampled_portIn (s : State) : s.sampled.portIn = s.portIn := by
  unfold State.sampled; split <;> rfl
@[simp] theorem State.sampled_events (s : State) : s.sampled.events = s.events := by
  unfold State.sampled; split <;> rfl
@[simp] theorem State.sampled_irqIn (s : State) : s.sampled.irqIn = s.irqIn.tail := by
  unfold State.sampled; split <;> simp [*]
@[simp] theorem State.sampled_draws (s : State) :
    s.sampled.draws = if s.irqIn = [] then s.draws + 1 else s.draws := by
  unfold State.sampled; split <;> simp [*]
@[simp] theorem State.sampled_reg (s : State) (r : Reg) : s.sampled.reg r = s.reg r := by
  simp [State.reg]

/-! ## `reg` and `sr` across a record update of other fields -/

/-- Two states with the same register file read the same registers. -/
theorem State.reg_congr {s t : State} (h : t.x = s.x) (r : Reg) : t.reg r = s.reg r := by
  simp [State.reg, h]

end Sys2Proof.Machine
end

