-- ==== Sys2Proof/Laws/Ops.lean ====
section
/-! SUPPORT. One law per shared operation: everything it can do. -/

namespace Sys2Proof.Machine

/-! ## Outcomes -/

/-- A computation ends in a next state exactly when it raises no fault. -/
theorem finish_eq_next {e : Except Fault State} {t : State} : finish e = .next t ↔ e = .ok t := by
  cases e <;> simp [finish]

/-- A computation ends in a fault exactly when it raises it. -/
theorem finish_eq_fault {e : Except Fault State} {f : Fault} : finish e = .fault f ↔ e = .error f := by
  cases e <;> simp [finish]

@[simp] theorem finish_ok (t : State) : finish (.ok t) = .next t := rfl
@[simp] theorem finish_error (f : Fault) : finish (.error f) = .fault f := rfl

/-- A computation is never refused. -/
theorem finish_ne_refused (e : Except Fault State) (r : Refusal) : finish e ≠ .refused r := by
  cases e <;> simp [finish]

/-! ## The hardware stack (R31, R32) -/

/-- A push with a free entry. -/
theorem push_ok (v : Word) (s : State) (h : s.sp.val < 16) :
    push v s = .ok { s with hs := s.hs.set s.sp.val v, sp := ⟨s.sp.val + 1, by omega⟩ } := by
  simp only [push, h, dite_true]

/-- A push with sixteen entries in use. -/
theorem push_full (v : Word) (s : State) (h : ¬ s.sp.val < 16) : push v s = .error .stackOverflow := by
  simp only [push, h, dite_false]

/-- What a push that goes through does. -/
theorem push_cases {v : Word} {s t : State} (h : push v s = .ok t) :
    ∃ h16 : s.sp.val < 16, t = { s with hs := s.hs.set s.sp.val v, sp := ⟨s.sp.val + 1, by omega⟩ } := by
  by_cases h16 : s.sp.val < 16
  · exact ⟨h16, by rw [push_ok v s h16] at h; exact (Except.ok.inj h).symm⟩
  · rw [push_full v s h16] at h; cases h

/-- A pop with an entry in use. -/
theorem pop_ok (s : State) (h : 0 < s.sp.val) :
    pop s = .ok (s.hs[s.sp.val - 1], { s with sp := ⟨s.sp.val - 1, by omega⟩ }) := by
  simp only [pop, h, dite_true]

/-- A pop with no entry in use. -/
theorem pop_empty (s : State) (h : ¬ 0 < s.sp.val) : pop s = .error .stackUnderflow := by
  simp only [pop, h, dite_false]

/-- What a pop that goes through does. -/
theorem pop_cases {s t : State} {v : Word} (h : pop s = .ok (v, t)) :
    ∃ h0 : 0 < s.sp.val, v = s.hs[s.sp.val - 1] ∧ t = { s with sp := ⟨s.sp.val - 1, by omega⟩ } := by
  by_cases h0 : 0 < s.sp.val
  · rw [pop_ok s h0] at h
    exact ⟨h0, (Prod.mk.inj (Except.ok.inj h)).imp Eq.symm Eq.symm⟩
  · rw [pop_empty s h0] at h; cases h

/-- The return address, then SR, on a stack with two free entries (R144, R216). -/
theorem pushReturn_ok (ret : Addr) (s : State) (h : s.sp.val + 2 ≤ 16) :
    pushReturn ret s = .ok
      { s with
        hs := (s.hs.set s.sp.val (ret.setWidth 32) (by omega)).set (s.sp.val + 1) s.sr (by omega)
        sp := ⟨s.sp.val + 2, by omega⟩ } := by
  simp only [pushReturn, push_ok (ret.setWidth 32) s (by omega), bind, Except.bind]
  rw [push_ok _ _ (by show s.sp.val + 1 < 16; omega)]

/-- With fewer than two free entries nothing is pushed (R144, R216). -/
theorem pushReturn_full (ret : Addr) (s : State) (h : 16 < s.sp.val + 2) : pushReturn ret s = .error .stackOverflow := by
  by_cases h1 : s.sp.val < 16
  · simp only [pushReturn, push_ok (ret.setWidth 32) s h1, bind, Except.bind]
    rw [push_full _ _ (by show ¬ s.sp.val + 1 < 16; omega)]
  · simp only [pushReturn, push_full (ret.setWidth 32) s h1, bind, Except.bind]

/-- SR and the return address off a stack with two entries in use (R145, R146). -/
theorem popReturn_ok (s : State) (h : 2 ≤ s.sp.val) :
    popReturn s = .ok
      ((s.hs[s.sp.val - 2]).setWidth 16,
        { s with sp := ⟨s.sp.val - 2, by omega⟩, x := s.x.set 0 (s.hs[s.sp.val - 1]) }) := by
  simp only [popReturn, pop_ok s (by omega), bind, Except.bind]
  rw [pop_ok _ (by show 0 < s.sp.val - 1; omega)]
  rfl

/-- With fewer than two entries in use nothing is popped (R145, R146). -/
theorem popReturn_short (s : State) (h : s.sp.val < 2) : popReturn s = .error .stackUnderflow := by
  by_cases h1 : 0 < s.sp.val
  · simp only [popReturn, pop_ok s h1, bind, Except.bind]
    rw [pop_empty _ (by show ¬ 0 < s.sp.val - 1; omega)]
  · simp only [popReturn, pop_empty s h1, bind, Except.bind]

/-! ## Data space (R55 – R58) -/

/-- The ports: 0x3FFB … 0x3FFF and 0xFFE0 … 0xFFFF (R55, decision D24). -/
theorem isIo_iff (a : Addr) :
    isIo a = true ↔ (0x3FFB ≤ a.toNat ∧ a.toNat ≤ 0x3FFF) ∨ (0xFFE0 ≤ a.toNat ∧ a.toNat ≤ 0xFFFF) := by
  simp [isIo, config]

/-- A read of data space that is no port (R56). -/
theorem memRead_dm {a : Addr} {s : State} (h : isIo a = false) : memRead a s = (s.dmWord a, s) := by
  simp [memRead, h]

/-- A read of a port for which the state holds an answer (R58). -/
theorem memRead_port {a : Addr} {s : State} {v : Word} {rest : List Word} (h : isIo a = true) (hp : s.portIn = v :: rest) :
    memRead a s = (v, { s with portIn := rest, events := s.events ++ [.read a v] }) := by
  simp [memRead, ioRead, h, hp]

/-- A write to data space that is no port (R57). -/
theorem memWrite_dm {a : Addr} {s : State} (v : Word) (h : isIo a = false) :
    memWrite a v s = { s with dm := Memory.write s.dm a.toNat v } := by
  simp [memWrite, h]

/-- A write to a port (R58). -/
theorem memWrite_port {a : Addr} {s : State} (v : Word) (h : isIo a = true) :
    memWrite a v s = { s with events := s.events ++ [.write a v] } := by
  simp [memWrite, ioWrite, h]

/-- A read of data space takes the value, and changes nothing but what the environment sees of a port. -/
theorem memRead_cases (a : Addr) (s : State) :
    (isIo a = false ∧ memRead a s = (s.dmWord a, s)) ∨
    (isIo a = true ∧ ∃ v rest, s.portIn = v :: rest ∧
      memRead a s = (v, { s with portIn := rest, events := s.events ++ [.read a v] })) ∨
    (isIo a = true ∧ s.portIn = [] ∧
      memRead a s = (Config.freePortWord s.draws,
        { s with events := s.events ++ [.read a (Config.freePortWord s.draws)], draws := s.draws + 1 })) := by
  cases h : isIo a with
  | false => exact .inl ⟨rfl, by simp [memRead, h]⟩
  | true =>
    cases hp : s.portIn with
    | nil => exact .inr (.inr ⟨rfl, rfl, by simp [memRead, ioRead, h, hp]⟩)
    | cons v rest => exact .inr (.inl ⟨rfl, v, rest, rfl, by simp [memRead, ioRead, h, hp]⟩)

/-- A write to data space: an output event at a port, a word of DM elsewhere. -/
theorem memWrite_cases (a : Addr) (v : Word) (s : State) :
    (isIo a = true ∧ memWrite a v s = { s with events := s.events ++ [.write a v] }) ∨
    (isIo a = false ∧ memWrite a v s = { s with dm := Memory.write s.dm a.toNat v }) := by
  cases h : isIo a with
  | true => exact .inl ⟨rfl, by simp [memWrite, ioWrite, h]⟩
  | false => exact .inr ⟨rfl, by simp [memWrite, h]⟩

/-! ## Program space (R59) -/

/-- A listed PM word. -/
theorem pmRead_some {a : Addr} {s : State} {w : Word} (h : Memory.read s.pm a.toNat = some w) : pmRead a s = .ok w := by
  simp [pmRead, h]

/-- A fetched word that decodes. -/
theorem fetchDecode_ok {s : State} {w : Word} {i : Instr} (hw : Memory.read s.pm s.pc.toNat = some w)
    (hd : decode w = .ok i) : fetchDecode s = .ok i := by
  simp [fetchDecode, pmRead, hw, hd]

/-- A fetched word that selects no instruction (R93). -/
theorem fetchDecode_illegal {s : State} {w : Word} {why : Illegal} (hw : Memory.read s.pm s.pc.toNat = some w)
    (hd : decode w = .error why) : fetchDecode s = .error (.illegalInstruction why) := by
  simp [fetchDecode, pmRead, hw, hd]

/-- A fetch outside the image (R225). -/
theorem fetchDecode_unwritten {s : State} (hw : Memory.read s.pm s.pc.toNat = none) :
    fetchDecode s = .error (.unwrittenRead s.pc) := by
  simp [fetchDecode, pmRead, hw]

/-- Fetching looks at PM and pc alone. -/
theorem fetchDecode_sampled (s : State) : fetchDecode s.sampled = fetchDecode s := by
  simp [fetchDecode, pmRead]

/-- A PM word outside the image (R225). -/
theorem pmRead_none {a : Addr} {s : State} (h : Memory.read s.pm a.toNat = none) :
    pmRead a s = .error (.unwrittenRead a) := by
  simp [pmRead, h]

/-! ## Interrupts (R211 – R217) -/

/-- The request lines of the two sources that have none are low (R35, decision D36). -/
theorem irq_high (s : State) (n : Fin 8) (h : 6 ≤ n.val) : s.irq.getLsbD n.val = false := by
  simp only [State.irq, BitVec.getLsbD_and]
  have h63 : (0x3F : BitVec 8).getLsbD n.val = false := by
    revert n; decide
  rw [h63, Bool.and_false]

/-- The vector entry of source `n` (R217). -/
theorem vectorAddr_toNat (n : Fin 8) : (vectorAddr n).toNat = 0xFFF0 + 2 * n.val := by
  revert n; decide

/-- Where source `n`'s service starts (R217, decision D19). -/
theorem handler_eq (n : Fin 8) (s : State) : handler n s = (pmRead (vectorAddr n) s).map (·.setWidth 16) := rfl

/-- With `in_isr` set nothing is taken (R214, R219). -/
theorem taken_inIsr {s : State} (h : s.inIsr = true) : s.taken = none := by
  simp [State.taken, h]

/-- The eight sources, in the priority encoder's order. -/
theorem mem_sources (n : Fin 8) : n ∈ ([0, 1, 2, 3, 4, 5, 6, 7] : List (Fin 8)) := by
  revert n; decide

/-- What is taken: with `in_isr` clear, the smallest source that is enabled and requested (R214). -/
theorem taken_cases {s : State} {n : Fin 8} (h : s.taken = some n) :
    s.inIsr = false ∧ (srIE s.sr n && s.irq.getLsbD n.val) = true ∧
      ∀ m : Fin 8, m < n → (srIE s.sr m && s.irq.getLsbD m.val) = false := by
  unfold State.taken at h
  cases hi : s.inIsr with
  | true => rw [hi, if_pos rfl] at h; cases h
  | false =>
    rw [hi, if_neg (by simp)] at h
    refine ⟨rfl, by simpa only using List.find?_some h, fun m hm => ?_⟩
    obtain ⟨_, as, bs, hl, ha⟩ := List.find?_eq_some_iff_append.1 h
    have hmem : m ∈ as := by
      have hin := mem_sources m
      have hs : ([0, 1, 2, 3, 4, 5, 6, 7] : List (Fin 8)).Pairwise (· < ·) := by decide
      rw [hl] at hin hs
      rcases List.mem_append.1 hin with h1 | h1
      · exact h1
      · rcases List.mem_cons.1 h1 with h2 | h2
        · exact absurd hm (h2 ▸ lt_irrefl m)
        · have := (List.pairwise_cons.1 (List.pairwise_append.1 hs).2.1).1 m h2
          exact absurd hm (not_lt.2 this.le)
    exact Bool.not_eq_true' _ ▸ ha m hmem

/-- Nothing is taken exactly when `in_isr` is set or no source is enabled and requested (R214). -/
theorem taken_none_iff (s : State) :
    s.taken = none ↔ s.inIsr = true ∨ ∀ n : Fin 8, (srIE s.sr n && s.irq.getLsbD n.val) = false := by
  unfold State.taken
  cases hi : s.inIsr with
  | true => simp
  | false =>
    rw [if_neg (by simp), List.find?_eq_none]
    constructor
    · intro h
      refine .inr fun n => ?_
      exact Bool.eq_false_iff.2 (h n (mem_sources n))
    · rintro (h | h)
      · cases h
      · intro n _
        rw [h n]
        exact Bool.false_ne_true

/-- Interrupt entry with two free entries and a vector entry in PM (R216). -/
theorem enterInterrupt_ok (n : Fin 8) (s : State) {w : Word} (hsp : s.sp.val + 2 ≤ 16)
    (hv : Memory.read s.pm (vectorAddr n).toNat = some w) :
    enterInterrupt n s = .ok
      { s with
        hs := (s.hs.set s.sp.val (s.pc.setWidth 32) (by omega)).set (s.sp.val + 1) s.sr (by omega)
        sp := ⟨s.sp.val + 2, by omega⟩
        sh := s.saveShadow.sh
        inIsr := true
        pc := w.setWidth 16 } := by
  simp only [enterInterrupt, pushReturn_ok s.pc s hsp, bind, Except.bind, handler_eq, pmRead, hv, Except.map]
  rfl

/-- Interrupt entry with fewer than two free entries has no effect (R216). -/
theorem enterInterrupt_full (n : Fin 8) (s : State) (hsp : 16 < s.sp.val + 2) :
    enterInterrupt n s = .error .stackOverflow := by
  simp only [enterInterrupt, pushReturn_full s.pc s hsp, bind, Except.bind]

/-- Interrupt entry whose vector word is not in the image (R225). -/
theorem enterInterrupt_noVector (n : Fin 8) (s : State) (hsp : s.sp.val + 2 ≤ 16)
    (hv : Memory.read s.pm (vectorAddr n).toNat = none) :
    enterInterrupt n s = .error (.unwrittenRead (vectorAddr n)) := by
  simp only [enterInterrupt, pushReturn_ok s.pc s hsp, bind, Except.bind, handler_eq, pmRead, hv, Except.map]

/-- An interrupt entry that goes through (R216). -/
theorem enterInterrupt_cases {n : Fin 8} {s t : State} (h : enterInterrupt n s = .ok t) :
    ∃ (w : Word) (h14 : s.sp.val + 2 ≤ 16), Memory.read s.pm (vectorAddr n).toNat = some w ∧
      t = { s with
        hs := (s.hs.set s.sp.val (s.pc.setWidth 32) (by omega)).set (s.sp.val + 1) s.sr (by omega)
        sp := ⟨s.sp.val + 2, by omega⟩
        sh := s.saveShadow.sh
        inIsr := true
        pc := w.setWidth 16 } := by
  by_cases h14 : s.sp.val + 2 ≤ 16
  · cases hv : Memory.read s.pm (vectorAddr n).toNat with
    | none => rw [enterInterrupt_noVector n s h14 hv] at h; cases h
    | some w =>
      rw [enterInterrupt_ok n s h14 hv] at h
      exact ⟨w, h14, rfl, (Except.ok.inj h).symm⟩
  · rw [enterInterrupt_full n s (by omega)] at h
    cases h

/-- RETI inside a service routine with two entries in use (R146). -/
theorem returnFromInterrupt_ok (s : State) (hi : s.inIsr = true) (hsp : 2 ≤ s.sp.val) :
    returnFromInterrupt s = .ok
      { s with
        sp := ⟨s.sp.val - 2, by omega⟩
        x := s.restoreShadow.x
        inIsr := false
        pc := (s.hs[s.sp.val - 2]).setWidth 16 } := by
  simp only [returnFromInterrupt, hi, if_true, popReturn_ok s hsp, bind, Except.bind, pure, Except.pure,
    State.restoreShadow, Except.ok.injEq, State.mk.injEq, and_true]
  apply Vector.ext
  intro i h
  simp only [Vector.getElem_ofFn]
  split
  · rfl
  · rw [Vector.getElem_set_ne]
    omega

/-- RETI with no interrupt entry outstanding (R146). -/
theorem returnFromInterrupt_outside (s : State) (hi : s.inIsr = false) :
    returnFromInterrupt s = .error .retiOutsideIsr := by
  simp [returnFromInterrupt, hi]

/-- RETI with fewer than two entries in use (R146). -/
theorem returnFromInterrupt_short (s : State) (hi : s.inIsr = true) (hsp : s.sp.val < 2) :
    returnFromInterrupt s = .error .stackUnderflow := by
  simp only [returnFromInterrupt, hi, if_true, popReturn_short s hsp, bind, Except.bind]

end Sys2Proof.Machine
end

