-- ==== Sys2Proof/Laws/Exec.lean ====
section
/-! SUPPORT. One law per shape that several instructions share: a result with flags, a jump, a step sequence; and the ports in
the terms that claims use. -/

namespace Sys2Proof.Machine

/-! ## Ports -/

/-- The configured ports are those of R55. -/
theorem isIo_iff_isPort (a : Addr) : isIo a = true ↔ IsPort a.toNat := isIo_iff a

/-- No port, in the terms of R55. -/
theorem isIo_false_iff (a : Addr) : isIo a = false ↔ ¬IsPort a.toNat := by
  rw [← isIo_iff_isPort, Bool.not_eq_true]

/-! ## Results -/

/-- A flag value by its place in SR, read from the six values (R26). -/
theorem flagWord_flagBit (f : FlagValues) (k : Nat) : (flagWord f).getLsbD k = flagBit f.c f.n f.v f.z f.ge f.l k := by
  rw [flagWord_bit]
  match k with
  | 0 | 1 | 2 | 3 | 4 | 5 => rfl
  | n + 6 => simp [flagBit]

/-- A class that writes no flag leaves the state as it is (R27). -/
theorem writeFlags_none (s : State) {cls : FlagClass} (f : FlagValues) (h : config.flagPolicy cls = 0) :
    s.writeFlags cls f = s := if_pos h

@[simp] theorem writeFlags_fpu (s : State) (f : FlagValues) : s.writeFlags .fpu f = s := writeFlags_none s f rfl
@[simp] theorem writeFlags_transfer (s : State) (f : FlagValues) : s.writeFlags .transfer f = s := writeFlags_none s f rfl
@[simp] theorem writeFlags_flow (s : State) (f : FlagValues) : s.writeFlags .flow f = s := writeFlags_none s f rfl

/-- A class that writes no flag writes back its result alone (R27). -/
theorem writeBack_none (s : State) {cls : FlagClass} (ri : Reg) (r : Word) (f : FlagValues) (h : config.flagPolicy cls = 0) :
    s.writeBack cls ri r f = s.setReg ri r := by
  unfold State.writeBack
  split
  · next h0 => rw [h0]
  · exact writeFlags_none _ f h

@[simp] theorem writeBack_fpu (s : State) (ri : Reg) (r : Word) (f : FlagValues) :
    s.writeBack .fpu ri r f = s.setReg ri r := writeBack_none s ri r f rfl
@[simp] theorem writeBack_transfer (s : State) (ri : Reg) (r : Word) (f : FlagValues) :
    s.writeBack .transfer ri r f = s.setReg ri r := writeBack_none s ri r f rfl

/-- A flag update changes SR's masked bits alone (R27, R153). -/
theorem writeFlags_bit (s : State) (cls : FlagClass) (f : FlagValues) (k : Nat) :
    ((s.writeFlags cls f).reg 0).getLsbD k =
      if (config.flagPolicy cls).getLsbD k then flagBit f.c f.n f.v f.z f.ge f.l k else (s.reg 0).getLsbD k := by
  unfold State.writeFlags
  split
  · next h => simp [h]
  · rw [State.setSr_eq, State.reg_setReg_same, mergeFlags_bit, State.sr_eq, flagWord_flagBit]

/-- A flag update keeps every register but SR. -/
theorem writeFlags_reg (s : State) (cls : FlagClass) (f : FlagValues) {q : Reg} (h : q ≠ 0) :
    (s.writeFlags cls f).reg q = s.reg q := by
  unfold State.writeFlags
  split
  · rfl
  · rw [State.setSr_eq, State.reg_setReg_ne _ _ h.symm]

/-- A flag update changes the register file alone. -/
theorem writeFlags_frame (s : State) (cls : FlagClass) (f : FlagValues) :
    s.writeFlags cls f = { s with x := (s.writeFlags cls f).x } := by
  unfold State.writeFlags
  split <;> rfl

/-- A write-back changes the register file alone. -/
theorem writeBack_frame (s : State) (cls : FlagClass) (ri : Reg) (r : Word) (f : FlagValues) :
    s.writeBack cls ri r f = { s with x := (s.writeBack cls ri r f).x } := by
  unfold State.writeBack
  split
  · rfl
  · exact writeFlags_frame _ cls f

/-- A write-back followed by the advance of pc, in the terms of the frame (R29, R160, R171). -/
theorem writeBack_writesBack (s : State) (cls : FlagClass) (ri : Reg) (r : Word) (f : FlagValues) :
    WritesBack s (s.writeBack cls ri r f).advance ri r (config.flagPolicy cls) (flagBit f.c f.n f.v f.z f.ge f.l) := by
  refine ⟨?_, ?_⟩
  · rw [writeBack_frame]
    rfl
  simp only [State.advance_eq, State.reg_jump]
  unfold State.writeBack
  by_cases hri : ri = 0
  · subst hri
    rw [if_pos rfl]
    exact ⟨by simp, fun q h _ => State.reg_setReg_ne s r h.symm, fun h => absurd rfl h⟩
  · rw [if_neg hri]
    refine ⟨?_, fun q h hq => ?_, fun _ k => ?_⟩
    · rw [writeFlags_reg _ _ _ hri, State.reg_setReg_same]
    · rw [writeFlags_reg _ _ _ hq, State.reg_setReg_ne _ _ h.symm]
    · rw [writeFlags_bit, State.reg_setReg_ne s r hri]

/-- ADD as a write-back (R151, R160). -/
theorem execAdd_eq (ri rj : Reg) (b : Source) (s : State) :
    execAdd ri rj b s = .next (s.writeBack .arith ri (addFlags (s.reg rj) (sourceValue b s)).1
      (addFlags (s.reg rj) (sourceValue b s)).2).advance := rfl

/-- SUB as a write-back (R152, R160). -/
theorem execSub_eq (ri rj : Reg) (b : Source) (s : State) :
    execSub ri rj b s = .next (s.writeBack .arith ri (subFlags (s.reg rj) (sourceValue b s)).1
      (subFlags (s.reg rj) (sourceValue b s)).2).advance := rfl

/-- CMP as a flag update (R153, R160). -/
theorem execCmp_eq (rj : Reg) (b : Source) (s : State) :
    execCmp rj b s = .next (s.writeFlags .compare (subFlags (s.reg rj) (sourceValue b s)).2).advance := rfl

/-- LD as a read of data space and a write-back (R110). -/
theorem execLd_eq (ri : Reg) (m : AddrMode) (s : State) :
    execLd ri m s = .next ((memRead (effAddr m s) s).2.setReg ri (memRead (effAddr m s) s).1).advance := by
  simp only [execLd, writeBack_transfer]

/-- ST as a write of data space (R111). -/
theorem execSt_eq (ri : Reg) (m : AddrMode) (s : State) :
    execSt ri m s = .next (memWrite (effAddr m s) (s.reg ri) s).advance := by
  simp only [execSt, writeFlags_transfer]

/-- CPY as a write-back (R120). -/
theorem execCpy_eq (ri : Reg) (src : Source) (s : State) :
    execCpy ri src s = .next { s with x := s.x.set ri.val (sourceValue src s), pc := s.pc + 1 } := by
  simp only [execCpy, writeBack_transfer]
  rfl

/-- PUSH as a push (R121). -/
theorem execPush_eq (src : Source) (s : State) :
    execPush src s = finish ((push (sourceValue src s) s).map State.advance) := by
  simp only [execPush, writeFlags_transfer]

/-- POP as a pop and a write-back (R122). -/
theorem execPop_eq (ri : Reg) (s : State) :
    execPop ri s = finish ((pop s).map (fun p => (p.2.setReg ri p.1).advance)) := by
  simp only [execPop, writeBack_transfer]

/-- CALL as two pushes and a jump (R144). -/
theorem execCall_eq (m : AddrMode) (s : State) :
    execCall m s = finish ((pushReturn s.npc s).map (fun t => t.jump (effAddr m s))) := by
  simp only [execCall, writeFlags_flow]

/-- The logical shape (R150, R160). -/
theorem logical_eq (ri : Reg) (r : Word) (s : State) :
    logical ri r s = .next (s.writeBack .logical ri r (resultFlags r false)).advance := rfl

/-- The shift shape (R170 – R172). -/
theorem shiftBy_eq (cls : FlagClass) (step : ShiftStep) (ri rj : Reg) (n : Count) (s : State) :
    shiftBy cls step ri rj n s =
      .next (s.writeBack cls ri (iterateStep step (countValue n s) (s.reg rj, srC s.sr)).1
        (resultFlags (iterateStep step (countValue n s) (s.reg rj, srC s.sr)).1
          (iterateStep step (countValue n s) (s.reg rj, srC s.sr)).2)).advance := rfl

/-- The floating-point shape (R191, R198). -/
theorem fpuResult_eq (ri : Reg) (r : Word) (s : State) :
    fpuResult ri r s = .next { s with x := s.x.set ri.val r, pc := s.pc + 1 } := by
  simp only [fpuResult, writeBack_fpu]
  rfl

/-- The shape of the jumps, with the condition as a proposition. -/
theorem jumpIf_eq (cond : Cond) (m : AddrMode) (s : State) {p : Prop} [Decidable p] (h : condHolds cond s.sr = true ↔ p) :
    jumpIf cond m s = .next { s with pc := if p then effAddr m s else s.pc + 1 } := by
  rw [jumpIf, writeFlags_flow]
  by_cases hp : p <;> simp [h, hp, State.jump]

/-! ## What each instruction's next state is made of -/

/-- The instructions that reach data space or the hardware stack. -/
def touchesMemoryOrStack : Instr → Bool
  | .ld _ _ | .st _ _ | .push _ | .pop _ | .call _ | .ret | .reti => true
  | .cpy _ _ => false
  | .jmp _ | .jc _ | .jn _ | .jv _ | .jz _ | .jnc _ | .jnn _ | .jnv _ | .jnz _ | .jge _ | .jl _ => false
  | .add _ _ _ | .sub _ _ _ | .cmp _ _ | .not _ _ | .and _ _ _ | .bic _ _ _ | .or _ _ _ | .xor _ _ _ => false
  | .srl _ _ _ | .sll _ _ _ | .sra _ _ _ | .rtr _ _ _ | .rtl _ _ _ | .rrc _ _ _ | .rlc _ _ _ => false
  | .fa _ _ _ | .fs _ _ _ | .fm _ _ _ | .fd _ _ _ | .fti _ _ | .itf _ _ => false

/-- Every other instruction completes, and changes registers and pc alone. -/
theorem exec_plain (i : Instr) (s : State) (h : touchesMemoryOrStack i = false) :
    ∃ t, exec i s = .next t ∧ t = { s with x := t.x, pc := t.pc } := by
  have wb : ∀ cls ri r f, (s.writeBack cls ri r f).advance =
      { s with x := (s.writeBack cls ri r f).advance.x, pc := (s.writeBack cls ri r f).advance.pc } := by
    intro cls ri r f
    rw [writeBack_frame]
    rfl
  have jp : ∀ cond m, ∃ t, jumpIf cond m s = .next t ∧ t = { s with x := t.x, pc := t.pc } :=
    fun cond m => ⟨_, jumpIf_eq cond m s Iff.rfl, rfl⟩
  cases i with
  | ld | st | push | pop | call | ret | reti => cases h
  | jmp m | jc m | jn m | jv m | jz m | jnc m | jnn m | jnv m | jnz m | jge m | jl m => exact jp _ m
  | cpy ri src => exact ⟨_, execCpy_eq ri src s, rfl⟩
  | cmp rj b => exact ⟨_, rfl, rfl⟩
  | fa ri rj b | fs ri rj b | fm ri rj b | fd ri rj b | fti ri rj | itf ri rj => exact ⟨_, fpuResult_eq _ _ s, rfl⟩
  | add ri rj b => exact ⟨_, execAdd_eq ri rj b s, wb _ _ _ _⟩
  | sub ri rj b => exact ⟨_, execSub_eq ri rj b s, wb _ _ _ _⟩
  | not ri rj | and ri rj b | bic ri rj b | or ri rj b | xor ri rj b => exact ⟨_, logical_eq _ _ _, wb _ _ _ _⟩
  | srl ri rj n | sll ri rj n | sra ri rj n | rtr ri rj n | rtl ri rj n | rrc ri rj n | rlc ri rj n =>
    exact ⟨_, shiftBy_eq _ _ _ _ _ _, wb _ _ _ _⟩

section Unseen

/-! A change `f` of the state that registers and pc do not see: no instruction but those on data space and the stack sees it. -/

variable {f : State → State} (hset : ∀ s r v, (f s).setReg r v = f (s.setReg r v)) (hreg : ∀ s r, (f s).reg r = s.reg r)
  (hpc : ∀ s, (f s).pc = s.pc) (hjump : ∀ s t, (f s).jump t = f (s.jump t))

include hreg in
theorem sourceValue_unseen (b : Source) (s : State) : sourceValue b (f s) = sourceValue b s := by
  cases b <;> simp [sourceValue, hreg]

include hreg in
theorem countValue_unseen (n : Count) (s : State) : countValue n (f s) = countValue n s := by
  cases n <;> simp [countValue, hreg]

include hreg hpc in
theorem effAddr_unseen (m : AddrMode) (s : State) : effAddr m (f s) = effAddr m s := by
  cases m <;> simp [effAddr, hreg, hpc]

include hset hreg in
theorem writeFlags_unseen (s : State) (cls : FlagClass) (v : FlagValues) :
    (f s).writeFlags cls v = f (s.writeFlags cls v) := by
  unfold State.writeFlags
  split
  · rfl
  · simp only [hset, State.setSr_eq, State.sr_eq, hreg]

include hset hreg in
theorem writeBack_unseen (s : State) (cls : FlagClass) (ri : Reg) (r : Word) (v : FlagValues) :
    (f s).writeBack cls ri r v = f (s.writeBack cls ri r v) := by
  unfold State.writeBack
  split
  · exact hset _ _ _
  · rw [hset, writeFlags_unseen hset hreg]

include hset hreg hpc hjump in
/-- An instruction that reaches neither data space nor the stack does the same whether or not the state is so changed. -/
theorem exec_unseen (i : Instr) (s : State) (h : touchesMemoryOrStack i = false) : exec i (f s) = mapNext f (exec i s) := by
  have jump : ∀ cond m, jumpIf cond m (f s) = mapNext f (jumpIf cond m s) := by
    intro cond m
    simp only [jumpIf, writeFlags_flow, State.sr_eq, hreg, effAddr_unseen hreg hpc, hjump, State.advance_eq, hpc]
    by_cases hc : condHolds cond (s.reg 0) = true <;> simp [hc, mapNext]
  have back := writeBack_unseen hset hreg
  cases i with
  | ld | st | push | pop | call | ret | reti => cases h
  | jmp m | jc m | jn m | jv m | jz m | jnc m | jnn m | jnv m | jnz m | jge m | jl m => exact jump _ m
  | cpy ri src => simp only [exec, execCpy, sourceValue_unseen hreg, back, State.advance_eq, hjump, hpc, mapNext]
  | cmp rj b =>
    simp only [exec, execCmp, sourceValue_unseen hreg, hreg, writeFlags_unseen hset hreg, State.advance_eq, hjump, hpc, mapNext]
  | add ri rj b => simp only [exec, execAdd, sourceValue_unseen hreg, hreg, back, State.advance_eq, hjump, hpc, mapNext]
  | sub ri rj b => simp only [exec, execSub, sourceValue_unseen hreg, hreg, back, State.advance_eq, hjump, hpc, mapNext]
  | not ri rj | and ri rj b | bic ri rj b | or ri rj b | xor ri rj b =>
    simp only [exec, execNot, execAnd, execBic, execOr, execXor, logical, sourceValue_unseen hreg, hreg, back,
      State.advance_eq, hjump, hpc, mapNext]
  | srl ri rj n | sll ri rj n | sra ri rj n | rtr ri rj n | rtl ri rj n | rrc ri rj n | rlc ri rj n =>
    simp only [exec, execSrl, execSll, execSra, execRtr, execRtl, execRrc, execRlc, shiftBy, countValue_unseen hreg, hreg,
      State.sr_eq, back, State.advance_eq, hjump, hpc, mapNext]
  | fa ri rj b | fs ri rj b | fm ri rj b | fd ri rj b | fti ri rj | itf ri rj =>
    simp only [exec, execFa, execFs, execFm, execFd, execFti, execItf, fpuResult, sourceValue_unseen hreg, hreg, back,
      State.advance_eq, hjump, hpc, mapNext]

end Unseen

/-- A PUSH that completes (R121). -/
theorem execPush_cases {src : Source} {s t : State} (h : execPush src s = .next t) :
    ∃ h16 : s.sp.val < 16,
      t = { s with hs := s.hs.set s.sp.val (sourceValue src s), sp := ⟨s.sp.val + 1, by omega⟩, pc := s.pc + 1 } := by
  by_cases h16 : s.sp.val < 16
  · simp only [execPush_eq, push_ok _ _ h16, Except.map, finish_ok, Host.Outcome.next.injEq] at h
    exact ⟨h16, h.symm⟩
  · simp only [execPush_eq, push_full _ _ h16, Except.map, finish_error] at h
    cases h

/-- A POP that completes (R122). -/
theorem execPop_cases {ri : Reg} {s t : State} (h : execPop ri s = .next t) :
    ∃ h0 : 0 < s.sp.val,
      t = { s with x := s.x.set ri.val (s.hs[s.sp.val - 1]), sp := ⟨s.sp.val - 1, by omega⟩, pc := s.pc + 1 } := by
  by_cases h0 : 0 < s.sp.val
  · simp only [execPop_eq, pop_ok _ h0, Except.map, finish_ok, Host.Outcome.next.injEq] at h
    exact ⟨h0, h.symm⟩
  · simp only [execPop_eq, pop_empty _ h0, Except.map, finish_error] at h
    cases h

/-- A CALL that completes (R144). -/
theorem execCall_cases {m : AddrMode} {s t : State} (h : execCall m s = .next t) :
    ∃ h14 : s.sp.val + 2 ≤ 16,
      t = { s with
        hs := (s.hs.set s.sp.val ((s.pc + 1).setWidth 32) (by omega)).set (s.sp.val + 1) (s.reg 0) (by omega)
        sp := ⟨s.sp.val + 2, by omega⟩
        pc := effAddr m s } := by
  by_cases h14 : s.sp.val + 2 ≤ 16
  · simp only [execCall_eq, pushReturn_ok _ _ h14, Except.map, finish_ok, Host.Outcome.next.injEq] at h
    exact ⟨h14, h.symm⟩
  · simp only [execCall_eq, pushReturn_full _ s (by omega), Except.map, finish_error] at h
    cases h

/-- A RET that completes (R145). -/
theorem execRet_cases {s t : State} (h : execRet s = .next t) :
    ∃ h2 : 2 ≤ s.sp.val,
      t = { s with
        x := s.x.set 0 (s.hs[s.sp.val - 1])
        sp := ⟨s.sp.val - 2, by omega⟩
        pc := (s.hs[s.sp.val - 2]).setWidth 16 } := by
  by_cases h2 : 2 ≤ s.sp.val
  · simp only [execRet, popReturn_ok s h2, Except.map, finish_ok, Host.Outcome.next.injEq] at h
    exact ⟨h2, h.symm⟩
  · simp only [execRet, popReturn_short s (by omega), Except.map, finish_error] at h
    cases h

/-- A RETI that completes (R146). -/
theorem execReti_cases {s t : State} (h : execReti s = .next t) :
    s.inIsr = true ∧ ∃ h2 : 2 ≤ s.sp.val,
      t = { s with
        x := s.restoreShadow.x
        sp := ⟨s.sp.val - 2, by omega⟩
        inIsr := false
        pc := (s.hs[s.sp.val - 2]).setWidth 16 } := by
  cases hi : s.inIsr with
  | false =>
    simp only [execReti, returnFromInterrupt_outside s hi, finish_error] at h
    cases h
  | true =>
    by_cases h2 : 2 ≤ s.sp.val
    · simp only [execReti, returnFromInterrupt_ok s hi h2, finish_ok, Host.Outcome.next.injEq] at h
      exact ⟨rfl, h2, h.symm⟩
    · simp only [execReti, returnFromInterrupt_short s hi (by omega), finish_error] at h
      cases h

/-! ## Step sequences (R172) -/

/-- No step. -/
@[simp] theorem iterateStep_zero (step : ShiftStep) (p : Word × Bool) : iterateStep step 0 p = p := rfl

/-- One step more, taken last. -/
theorem iterateStep_succ (step : ShiftStep) (n : Nat) (p : Word × Bool) :
    iterateStep step (n + 1) p = step (iterateStep step n p) := by
  induction n generalizing p with
  | zero => rfl
  | succ n ih => exact ih (step p)

/-- A property of the value and the carry that holds at the start, and that each step carries to the next count, holds after
the counted steps. -/
theorem iterateStep_induction {step : ShiftStep} {p : Word × Bool} {good : Nat → Word × Bool → Prop} (h0 : good 0 p)
    (hs : ∀ n q, good n q → good (n + 1) (step q)) (n : Nat) : good n (iterateStep step n p) := by
  induction n with
  | zero => exact h0
  | succ n ih => rw [iterateStep_succ]; exact hs n _ ih

end Sys2Proof.Machine
end

