-- ==== Sys2Proof/Laws/Ieee.lean ====
section
/-! SUPPORT. NaN operands of the recommended functions (R199): each result is the quiet NaN. -/

namespace Sys2Proof.Machine

/-- The quiet NaN is a NaN. -/
theorem isNaN32_quietNaN : isNaN32 quietNaN := by decide

/-- Flipping the sign bit keeps exponent and fraction, so a NaN stays a NaN. -/
theorem isNaN32_negIeee {b : Word} (h : isNaN32 b) : isNaN32 (negIeee b) := by
  have hf : ∀ lo k, lo + k ≤ 31 → (negIeee b).extractLsb' lo k = b.extractLsb' lo k := by
    intro lo k hk
    apply BitVec.eq_of_getLsbD_eq
    intro i hi
    have hz : ∀ j : Fin 31, (0x80000000 : Word).getLsbD j.val = false := by decide
    have hx := hz ⟨lo + i, by omega⟩
    simp only [negIeee, BitVec.getLsbD_extractLsb', BitVec.getLsbD_xor, hx, Bool.xor_false]
  unfold isNaN32 binary32 at h ⊢
  simp only [hf 23 8 (by omega), hf 0 23 (by omega)]
  split_ifs at h ⊢ <;> simp_all

/-- Addition with a NaN. -/
theorem addIeee_nan {a b : Word} (h : isNaN32 a ∨ isNaN32 b) : addIeee a b = quietNaN := by
  unfold addIeee
  rcases h with h | h
  · rw [h]
  · rw [h]
    cases binary32 a <;> rfl

/-- Subtraction with a NaN. -/
theorem subIeee_nan {a b : Word} (h : isNaN32 a ∨ isNaN32 b) : subIeee a b = quietNaN :=
  addIeee_nan (h.imp_right isNaN32_negIeee)

/-- Multiplication with a NaN. -/
theorem mulIeee_nan {a b : Word} (h : isNaN32 a ∨ isNaN32 b) : mulIeee a b = quietNaN := by
  unfold mulIeee
  rcases h with h | h
  · rw [h]
  · rw [h]
    cases binary32 a <;> rfl

/-- Division with a NaN. -/
theorem divIeee_nan {a b : Word} (h : isNaN32 a ∨ isNaN32 b) : divIeee a b = quietNaN := by
  unfold divIeee
  rcases h with h | h
  · rw [h]
  · rw [h]
    cases binary32 a <;> rfl

/-- The instantiation of Machine/Ieee.lean meets R199. -/
theorem recommendedFp_recommended : Recommended recommendedFp where
  add _ _ _ _ := rfl
  sub _ _ _ _ := rfl
  mul _ _ _ _ := rfl
  div _ _ _ _ := rfl
  toInt a r h := by simp [recommendedFp, h]
  fromInt _ := rfl
  addNaN _ _ h := (congrArg isNaN32 (addIeee_nan h)).mpr isNaN32_quietNaN
  subNaN _ _ h := (congrArg isNaN32 (subIeee_nan h)).mpr isNaN32_quietNaN
  mulNaN _ _ h := (congrArg isNaN32 (mulIeee_nan h)).mpr isNaN32_quietNaN
  divNaN _ _ h := (congrArg isNaN32 (divIeee_nan h)).mpr isNaN32_quietNaN

end Sys2Proof.Machine
end

