-- ==== Sys2Proof/Laws/PerInstr.lean ====
section
/-! SUPPORT. One statement per instruction, as syntax: its word has the bits that its row of spec/opcode_table.json fixes
(spec/30_encoding.md R90). -/

namespace Sys2Proof.Laws

/-- The column "fixed" of an instruction's row: the highest bit, the lowest bit and the value of each fixed field. -/
def TableRow.fixed : Instr → List (Nat × Nat × Nat)
  | .ld _ _ => [(31, 27, 0)]
  | .st _ _ => [(31, 27, 1)]
  | .cpy _ _ => [(31, 27, 2)]
  | .push _ => [(31, 27, 3)]
  | .pop _ => [(31, 27, 4)]
  | .jmp _ => [(31, 27, 5), (21, 18, 0)]
  | .jc _ => [(31, 27, 5), (21, 18, 8)]
  | .jn _ => [(31, 27, 5), (21, 18, 4)]
  | .jv _ => [(31, 27, 5), (21, 18, 2)]
  | .jz _ => [(31, 27, 5), (21, 18, 1)]
  | .jnc _ => [(31, 27, 5), (21, 18, 7)]
  | .jnn _ => [(31, 27, 5), (21, 18, 11)]
  | .jnv _ => [(31, 27, 5), (21, 18, 13)]
  | .jnz _ => [(31, 27, 5), (21, 18, 14)]
  | .jge _ => [(31, 27, 5), (21, 18, 6)]
  | .jl _ => [(31, 27, 5), (21, 18, 9)]
  | .call _ => [(31, 27, 6), (21, 18, 0)]
  | .ret => [(31, 27, 7), (21, 18, 0), (16, 16, 0)]
  | .reti => [(31, 27, 7), (21, 18, 0), (16, 16, 1)]
  | .add _ _ _ => [(31, 27, 8)]
  | .sub _ _ _ => [(31, 27, 9)]
  | .cmp _ _ => [(31, 27, 10)]
  | .not _ _ => [(31, 27, 11)]
  | .and _ _ _ => [(31, 27, 12)]
  | .bic _ _ _ => [(31, 27, 13)]
  | .or _ _ _ => [(31, 27, 14)]
  | .xor _ _ _ => [(31, 27, 15)]
  | .srl _ _ _ => [(31, 27, 16), (3, 1, 0)]
  | .sll _ _ _ => [(31, 27, 16), (3, 1, 1)]
  | .sra _ _ _ => [(31, 27, 16), (3, 1, 2)]
  | .rtr _ _ _ => [(31, 27, 16), (3, 1, 4)]
  | .rtl _ _ _ => [(31, 27, 16), (3, 1, 5)]
  | .rrc _ _ _ => [(31, 27, 16), (3, 1, 6)]
  | .rlc _ _ _ => [(31, 27, 16), (3, 1, 7)]
  | .fa _ _ _ => [(31, 27, 17)]
  | .fs _ _ _ => [(31, 27, 18)]
  | .fm _ _ _ => [(31, 27, 19)]
  | .fd _ _ _ => [(31, 27, 20)]
  | .fti _ _ => [(31, 27, 21)]
  | .itf _ _ => [(31, 27, 22)]

/-- The encoded word has every field that its table row fixes. -/
def TableRow.Statement (i : Instr) : Prop :=
  ∀ f ∈ TableRow.fixed i, ((encode i).extractLsb' f.2.1 (f.1 - f.2.1 + 1)).toNat = f.2.2

namespace TableRow

/-- A row that fixes the opcode alone. -/
theorem of_opcode {i : Instr} {v : Nat} (h : fixed i = [(31, 27, v)]) (ho : (opField (encode i)).toNat = v) : Statement i := by
  unfold Statement
  rw [h]
  simp only [List.forall_mem_singleton]
  exact ho

/-- A row that fixes the opcode and one field below it. -/
theorem of_two {i : Instr} {v hi lo c : Nat} (h : fixed i = [(31, 27, v), (hi, lo, c)]) (ho : (opField (encode i)).toNat = v)
    (hc : ((encode i).extractLsb' lo (hi - lo + 1)).toNat = c) : Statement i := by
  unfold Statement
  rw [h]
  simp only [List.forall_mem_cons]
  exact ⟨ho, hc, fun _ h => absurd h List.not_mem_nil⟩

/-- LD (R110). -/
theorem ld (ri : Reg) (m : AddrMode) : Statement (.ld ri m) :=
  of_opcode rfl (congrArg BitVec.toNat (opField_formatM _ _ _ _ _))

/-- ST (R111). -/
theorem st (ri : Reg) (m : AddrMode) : Statement (.st ri m) :=
  of_opcode rfl (congrArg BitVec.toNat (opField_formatM _ _ _ _ _))

/-- CPY (R120). -/
theorem cpy (ri : Reg) (src : Source) : Statement (.cpy ri src) := by
  cases src <;> exact of_opcode rfl (congrArg BitVec.toNat (opField_formatM _ _ _ _ _))

/-- PUSH (R121). -/
theorem push (src : Source) : Statement (.push src) := by
  cases src <;> exact of_opcode rfl (congrArg BitVec.toNat (opField_formatM _ _ _ _ _))

/-- POP (R122). -/
theorem pop (ri : Reg) : Statement (.pop ri) :=
  of_opcode rfl (congrArg BitVec.toNat (opField_formatM _ _ _ _ _))

/-- JMP (R132). -/
theorem jmp (m : AddrMode) : Statement (.jmp m) :=
  of_two rfl (congrArg BitVec.toNat (opField_formatJ _ _ _ _ _)) (congrArg BitVec.toNat (ccField_formatJ _ _ _ _ _))

/-- JC (R133). -/
theorem jc (m : AddrMode) : Statement (.jc m) :=
  of_two rfl (congrArg BitVec.toNat (opField_formatJ _ _ _ _ _)) (congrArg BitVec.toNat (ccField_formatJ _ _ _ _ _))

/-- JN (R134). -/
theorem jn (m : AddrMode) : Statement (.jn m) :=
  of_two rfl (congrArg BitVec.toNat (opField_formatJ _ _ _ _ _)) (congrArg BitVec.toNat (ccField_formatJ _ _ _ _ _))

/-- JV (R135). -/
theorem jv (m : AddrMode) : Statement (.jv m) :=
  of_two rfl (congrArg BitVec.toNat (opField_formatJ _ _ _ _ _)) (congrArg BitVec.toNat (ccField_formatJ _ _ _ _ _))

/-- JZ (R136). -/
theorem jz (m : AddrMode) : Statement (.jz m) :=
  of_two rfl (congrArg BitVec.toNat (opField_formatJ _ _ _ _ _)) (congrArg BitVec.toNat (ccField_formatJ _ _ _ _ _))

/-- JNC (R137). -/
theorem jnc (m : AddrMode) : Statement (.jnc m) :=
  of_two rfl (congrArg BitVec.toNat (opField_formatJ _ _ _ _ _)) (congrArg BitVec.toNat (ccField_formatJ _ _ _ _ _))

/-- JNN (R138). -/
theorem jnn (m : AddrMode) : Statement (.jnn m) :=
  of_two rfl (congrArg BitVec.toNat (opField_formatJ _ _ _ _ _)) (congrArg BitVec.toNat (ccField_formatJ _ _ _ _ _))

/-- JNV (R139). -/
theorem jnv (m : AddrMode) : Statement (.jnv m) :=
  of_two rfl (congrArg BitVec.toNat (opField_formatJ _ _ _ _ _)) (congrArg BitVec.toNat (ccField_formatJ _ _ _ _ _))

/-- JNZ (R140). -/
theorem jnz (m : AddrMode) : Statement (.jnz m) :=
  of_two rfl (congrArg BitVec.toNat (opField_formatJ _ _ _ _ _)) (congrArg BitVec.toNat (ccField_formatJ _ _ _ _ _))

/-- JGE (R141). -/
theorem jge (m : AddrMode) : Statement (.jge m) :=
  of_two rfl (congrArg BitVec.toNat (opField_formatJ _ _ _ _ _)) (congrArg BitVec.toNat (ccField_formatJ _ _ _ _ _))

/-- JL (R142). -/
theorem jl (m : AddrMode) : Statement (.jl m) :=
  of_two rfl (congrArg BitVec.toNat (opField_formatJ _ _ _ _ _)) (congrArg BitVec.toNat (ccField_formatJ _ _ _ _ _))

/-- CALL (R144). -/
theorem call (m : AddrMode) : Statement (.call m) :=
  of_two rfl (congrArg BitVec.toNat (opField_formatJ _ _ _ _ _)) (congrArg BitVec.toNat (ccField_formatJ _ _ _ _ _))

/-- RET (R145). -/
theorem ret : Statement .ret := by
  unfold Statement
  decide

/-- RETI (R146). -/
theorem reti : Statement .reti := by
  unfold Statement
  decide

/-- ADD (R151). -/
theorem add (ri rj : Reg) (b : Source) : Statement (.add ri rj b) :=
  of_opcode rfl (congrArg BitVec.toNat (opField_formatA _ _ _ _))

/-- SUB (R152). -/
theorem sub (ri rj : Reg) (b : Source) : Statement (.sub ri rj b) :=
  of_opcode rfl (congrArg BitVec.toNat (opField_formatA _ _ _ _))

/-- CMP (R153). -/
theorem cmp (rj : Reg) (b : Source) : Statement (.cmp rj b) :=
  of_opcode rfl (congrArg BitVec.toNat (opField_formatA _ _ _ _))

/-- NOT (R154). -/
theorem not (ri rj : Reg) : Statement (.not ri rj) :=
  of_opcode rfl (congrArg BitVec.toNat (opField_formatA _ _ _ _))

/-- AND (R155). -/
theorem and (ri rj : Reg) (b : Source) : Statement (.and ri rj b) :=
  of_opcode rfl (congrArg BitVec.toNat (opField_formatA _ _ _ _))

/-- BIC (R156). -/
theorem bic (ri rj : Reg) (b : Source) : Statement (.bic ri rj b) :=
  of_opcode rfl (congrArg BitVec.toNat (opField_formatA _ _ _ _))

/-- OR (R157). -/
theorem or (ri rj : Reg) (b : Source) : Statement (.or ri rj b) :=
  of_opcode rfl (congrArg BitVec.toNat (opField_formatA _ _ _ _))

/-- XOR (R158). -/
theorem xor (ri rj : Reg) (b : Source) : Statement (.xor ri rj b) :=
  of_opcode rfl (congrArg BitVec.toNat (opField_formatA _ _ _ _))

/-- SRL (R173). -/
theorem srl (ri rj : Reg) (n : Count) : Statement (.srl ri rj n) :=
  of_two rfl (congrArg BitVec.toNat (opField_formatA _ _ _ _)) (congrArg BitVec.toNat (sctlField_formatA _ _ _ _ _))

/-- SLL (R174). -/
theorem sll (ri rj : Reg) (n : Count) : Statement (.sll ri rj n) :=
  of_two rfl (congrArg BitVec.toNat (opField_formatA _ _ _ _)) (congrArg BitVec.toNat (sctlField_formatA _ _ _ _ _))

/-- SRA (R175). -/
theorem sra (ri rj : Reg) (n : Count) : Statement (.sra ri rj n) :=
  of_two rfl (congrArg BitVec.toNat (opField_formatA _ _ _ _)) (congrArg BitVec.toNat (sctlField_formatA _ _ _ _ _))

/-- RTR (R176). -/
theorem rtr (ri rj : Reg) (n : Count) : Statement (.rtr ri rj n) :=
  of_two rfl (congrArg BitVec.toNat (opField_formatA _ _ _ _)) (congrArg BitVec.toNat (sctlField_formatA _ _ _ _ _))

/-- RTL (R177). -/
theorem rtl (ri rj : Reg) (n : Count) : Statement (.rtl ri rj n) :=
  of_two rfl (congrArg BitVec.toNat (opField_formatA _ _ _ _)) (congrArg BitVec.toNat (sctlField_formatA _ _ _ _ _))

/-- RRC (R178). -/
theorem rrc (ri rj : Reg) (n : Count) : Statement (.rrc ri rj n) :=
  of_two rfl (congrArg BitVec.toNat (opField_formatA _ _ _ _)) (congrArg BitVec.toNat (sctlField_formatA _ _ _ _ _))

/-- RLC (R179). -/
theorem rlc (ri rj : Reg) (n : Count) : Statement (.rlc ri rj n) :=
  of_two rfl (congrArg BitVec.toNat (opField_formatA _ _ _ _)) (congrArg BitVec.toNat (sctlField_formatA _ _ _ _ _))

/-- FA (R192). -/
theorem fa (ri rj : Reg) (b : Source) : Statement (.fa ri rj b) :=
  of_opcode rfl (congrArg BitVec.toNat (opField_formatA _ _ _ _))

/-- FS (R193). -/
theorem fs (ri rj : Reg) (b : Source) : Statement (.fs ri rj b) :=
  of_opcode rfl (congrArg BitVec.toNat (opField_formatA _ _ _ _))

/-- FM (R194). -/
theorem fm (ri rj : Reg) (b : Source) : Statement (.fm ri rj b) :=
  of_opcode rfl (congrArg BitVec.toNat (opField_formatA _ _ _ _))

/-- FD (R195). -/
theorem fd (ri rj : Reg) (b : Source) : Statement (.fd ri rj b) :=
  of_opcode rfl (congrArg BitVec.toNat (opField_formatA _ _ _ _))

/-- FTI (R196). -/
theorem fti (ri rj : Reg) : Statement (.fti ri rj) :=
  of_opcode rfl (congrArg BitVec.toNat (opField_formatA _ _ _ _))

/-- ITF (R197). -/
theorem itf (ri rj : Reg) : Statement (.itf ri rj) :=
  of_opcode rfl (congrArg BitVec.toNat (opField_formatA _ _ _ _))

end TableRow

end Sys2Proof.Laws
end

