-- ==== Sys2Proof/Laws/Step.lean ====
section
/-! SUPPORT. What a step can be, what a run is made of, and what loading leaves. -/

namespace Sys2Proof.Machine

/-- With source `n` taken at the boundary, the step is the interrupt entry (R215). -/
theorem step_taken {s : State} {n : Fin 8} (h : s.taken = some n) : step s = finish (enterInterrupt n s.sampled) := by
  simp [step, h]

/-- With nothing taken, the step is the fetched instruction (R9). -/
theorem step_exec {s : State} {i : Instr} (h : s.taken = none) (hf : fetchDecode s = .ok i) : step s = exec i s.sampled := by
  simp [step, h, fetchDecode_sampled, hf]

/-- With nothing taken and no instruction at pc, the step is the fault of the fetch (R225). -/
theorem step_noInstruction {s : State} {f : Fault} (h : s.taken = none) (hf : fetchDecode s = .error f) :
    step s = .fault f := by
  simp [step, h, fetchDecode_sampled, hf]

/-- Every step that answers a next state is an interrupt entry or an instruction. -/
theorem step_cases {s t : State} (h : step s = .next t) :
    (∃ n, s.taken = some n ∧ enterInterrupt n s.sampled = .ok t) ∨
    (s.taken = none ∧ ∃ i, fetchDecode s = .ok i ∧ exec i s.sampled = .next t) := by
  cases ht : s.taken with
  | some n =>
    rw [step_taken ht, finish_eq_next] at h
    exact .inl ⟨n, rfl, h⟩
  | none =>
    cases hf : fetchDecode s with
    | ok i =>
      rw [step_exec ht hf] at h
      exact .inr ⟨rfl, i, rfl, h⟩
    | error f =>
      rw [step_noInstruction ht hf] at h
      cases h

/-- Sampling takes one entry of the levels, or draws one free value, and changes nothing else (R35). -/
theorem sampled_eq (s : State) :
    s.sampled = { s with irqIn := s.irqIn.tail, draws := if s.irqIn = [] then s.draws + 1 else s.draws } := by
  cases h : s.irqIn <;> simp [State.sampled, h]

/-- The levels after the coming boundary are those of the boundary after it (R35). -/
theorem levelsAt_sampled (s : State) (k : Nat) : levelsAt s.sampled k = levelsAt s (k + 1) := by
  unfold levelsAt State.sampled
  cases h : s.irqIn with
  | nil => simp [Nat.add_right_comm s.draws 1 k, Nat.add_assoc]
  | cons levels rest => simp

/-- What the core reads of the request lines (R35). -/
theorem irq_eq_levelsAt (s : State) : s.irq = levelsAt s 0 &&& 0x3F := by
  unfold State.irq levelsAt
  cases s.irqIn <;> rfl

/-- Source `n`'s line, as the core reads it at the coming boundary, is high exactly when the source is requested (R35). -/
theorem irq_eq_requested (s : State) (n : Fin 8) : s.irq.getLsbD n.val = requested s n := by
  have mask : (0x3F : BitVec 8).getLsbD n.val = decide (n.val < 6) := by revert n; decide
  rw [requested, irq_eq_levelsAt, BitVec.getLsbD_and, mask, Bool.and_comm]

/-- A boundary at which the environment raises no request takes nothing (R214). -/
theorem taken_noRequest {s : State} (h : levelsAt s 0 &&& 0x3F = 0) : s.taken = none := by
  exact (taken_none_iff s).2 (.inr fun n => by rw [irq_eq_levelsAt, h]; simp)

/-- At the jump to itself, with nothing taken, the step changes nothing but the sampling of the request lines (R256). -/
theorem step_selfJump {s : State} (h : AtSelfJump s) (ht : s.taken = none) : step s = .next s.sampled := by
  obtain ⟨w, m, hw, hd, hm⟩ := h
  rw [step_exec ht (fetchDecode_ok hw hd)]
  have target : effAddr m s.sampled = s.sampled.pc := by
    rcases hm with rfl | rfl
    · exact (State.sampled_pc s).symm
    · simp only [effAddr, State.pcValue_eq]
      bv_omega
  show execJmp m s.sampled = _
  rw [execJmp, jumpIf_eq .always m s.sampled (p := True) (by simp [condHolds]), if_pos trivial, target]

/-- Sampling keeps the jump to itself. -/
theorem atSelfJump_sampled {s : State} (h : AtSelfJump s) : AtSelfJump s.sampled := by
  simpa [AtSelfJump] using h

/-- A run of no step. -/
@[simp] theorem run_zero (s : State) : Host.Core.run Sys2Proof.core 0 s = .next s := Host.Core.run.eq_1 Sys2Proof.core s

/-- A run whose first step is known. -/
theorem run_step {s u : State} (h : step s = .next u) (n : Nat) :
    Host.Core.run Sys2Proof.core (n + 1) s = Host.Core.run Sys2Proof.core n u := by
  refine (Host.Core.run.eq_2 Sys2Proof.core s n).trans ?_
  have hc : Sys2Proof.core.step s = .next u := h
  simp only [hc]

/-- A run of one step more, from its first step. -/
theorem run_succ {n : Nat} {s t : State} (h : Host.Core.run Sys2Proof.core (n + 1) s = .next t) :
    ∃ u, step s = .next u ∧ Host.Core.run Sys2Proof.core n u = .next t := by
  have h' := (Host.Core.run.eq_2 Sys2Proof.core s n).symm.trans h
  cases hs : step s with
  | next u =>
    have hc : Sys2Proof.core.step s = .next u := hs
    simp only [hc] at h'
    exact ⟨u, rfl, h'⟩
  | fault f =>
    have hc : Sys2Proof.core.step s = .fault f := hs
    simp only [hc] at h'
    cases h'
  | refused r =>
    have hc : Sys2Proof.core.step s = .refused r := hs
    simp only [hc] at h'
    cases h'

/-- The next step after a load by `withFetchWord` runs the word's instruction (assumption log 6). -/
theorem withFetchWord_fetch (s : State) (nbits w : Nat) :
    Memory.read (s.withFetchWord nbits w).pm (s.withFetchWord nbits w).pc.toNat = some (BitVec.ofNat 32 (w % 2 ^ nbits)) := by
  simp [State.withFetchWord]

/-- After `withFetchWord` no request line is high at the coming boundary. -/
theorem withFetchWord_taken (s : State) (nbits w : Nat) : (s.withFetchWord nbits w).taken = none := by
  rw [taken_none_iff]
  refine .inr fun n => ?_
  simp [State.irq, State.withFetchWord]

/-- What a load of PM leaves alone, and what it fills (R253, R255). -/
theorem loadPm_eq (s : State) (image : List (Addr × Word)) :
    s.loadPm image = { s with pm := image.foldl (fun m c => Memory.write m c.1.toNat c.2) s.pm } := rfl

/-- A load of DM keeps the canonical form. -/
theorem loadDm_wf (s : State) (image : List (Addr × Word)) (h : Memory.wf s.dm) : Memory.wf (s.loadDm image).dm := by
  show Memory.wf (image.foldl _ s.dm)
  generalize s.dm = m at h
  induction image generalizing m with
  | nil => exact h
  | cons c rest ih =>
    refine ih _ ?_
    dsimp only
    split
    · exact h
    · exact Memory.write_wf _ _ h

/-- A load of DM puts no word at a port (R55). -/
theorem loadDm_noPort (s : State) (image : List (Addr × Word)) {P : Nat → Prop} (hP : ∀ a : Addr, isIo a = false → P a.toNat)
    (h : ∀ c ∈ s.dm, P c.1) : ∀ c ∈ (s.loadDm image).dm, P c.1 := by
  show ∀ c ∈ image.foldl _ s.dm, P c.1
  generalize s.dm = m at h
  induction image generalizing m with
  | nil => exact h
  | cons d rest ih =>
    refine ih _ ?_
    dsimp only
    split
    · exact h
    · rename_i hd
      intro c hc
      rcases Memory.mem_write hc with rfl | hc
      · exact hP _ (by simpa using hd)
      · exact h c hc

/-- A load of PM keeps the canonical form. -/
theorem loadPm_wf (s : State) (image : List (Addr × Word)) (h : Memory.wf s.pm) : Memory.wf (s.loadPm image).pm :=
  Memory.foldl_write_wf image h

/-- A store keeps the canonical form of DM (R57). -/
theorem memWrite_wf (a : Addr) (v : Word) (s : State) (h : Memory.wf s.dm) : Memory.wf (memWrite a v s).dm := by
  rcases memWrite_cases a v s with ⟨_, e⟩ | ⟨_, e⟩ <;> rw [e]
  · exact h
  · exact Memory.write_wf a v h

/-- A load leaves DM as it is (R56). -/
theorem memRead_wf (a : Addr) (s : State) (h : Memory.wf s.dm) : Memory.wf (memRead a s).2.dm := by
  rcases memRead_cases a s with ⟨_, e⟩ | ⟨_, v, rest, _, e⟩ | ⟨_, _, e⟩ <;> rw [e] <;> exact h

/-- The memories at reset are in canonical form (R38). -/
theorem reset_memories_wf : Memory.wf State.reset.dm ∧ Memory.wf State.reset.pm := ⟨Memory.wf_nil, Memory.wf_nil⟩

end Sys2Proof.Machine
end

