-- ==== Sys2Proof/Tests/Slice0.lean ====
section
/-! SUPPORT. The model's own tests: small named theorems about one decode or one step, whose expected results stand in
spec/95_test_vectors.md (or are worked out from a named rule), and one witness for the hypotheses of each obligation. -/

namespace Sys2Proof.Tests

open Sys2Proof.Machine

/-! ## Helpers -/

/-- The reset state with some registers written. -/
def withRegs (l : List (Reg × Word)) : State := l.foldl (fun s c => s.setReg c.1 c.2) State.reset

/-- A state's stack, bottom first. -/
def withStack (l : List Word) (s : State) : State :=
  l.foldl (fun s v => match push v s with | .ok t => t | .error _ => s) s

/-- One step of a state whose next instruction is the word `w`. -/
def runWord (w : Nat) (s : State) : Result := step (s.withFetchWord 32 w)

/-- The step completes and the next state has the property. -/
def seen (r : Result) (p : State → Bool) : Bool :=
  match r with
  | .next t => p t
  | .fault _ => false
  | .refused _ => false

/-- The step stops with the fault. -/
def stops (r : Result) (f : Fault) : Bool :=
  match r with
  | .next _ => false
  | .fault g => g == f
  | .refused _ => false

/-! ## WellFormed: ill-formed terms are refused (R60: register 0 is never an index register) -/

theorem test_wf_indexed_r0_refused : (Instr.ld 2 (.indexed 0 5)).wf = false := by decide
theorem test_wf_regDirect_r0_refused : (Instr.st 2 (.regDirect 0)).wf = false := by decide
theorem test_wf_jump_r0_refused : (Instr.jmp (.indexed 0 5)).wf = false ∧ (Instr.jl (.regDirect 0)).wf = false := by decide
theorem test_wf_call_r0_refused : (Instr.call (.regDirect 0)).wf = false := by decide
theorem test_wf_indexed_r31_accepted : (Instr.ld 0 (.indexed 31 5)).wf = true := by decide

/-! ## Decoding: words written out from the formats (R82 – R92; spec/95_test_vectors.md part 2), every constructor -/

/-- Format M in all four modes (R60). -/
theorem test_decode_ld :
    decode 0x00820200 = .ok (.ld 2 (.indexed 1 0x0200)) ∧ decode 0x00830000 = .ok (.ld 2 (.regDirect 1)) ∧
    decode 0x00800005 = .ok (.ld 2 (.pcRelative 5)) ∧ decode 0x00810100 = .ok (.ld 2 (.absolute 0x0100)) := by decide
theorem test_decode_st :
    decode 0x08440010 = .ok (.st 1 (.indexed 2 0x0010)) ∧ decode 0x08450000 = .ok (.st 1 (.regDirect 2)) ∧
    decode 0x08400100 = .ok (.st 1 (.pcRelative 0x0100)) ∧ decode 0x08010100 = .ok (.st 0 (.absolute 0x0100)) := by decide
/-- Format T: the register and the constant form; ignored fields (R88). -/
theorem test_decode_transfer :
    decode 0x10C20000 = .ok (.cpy 3 (.reg 1)) ∧ decode 0x10418000 = .ok (.cpy 1 (.const 0x8000)) ∧
    decode 0x1BCA0000 = .ok (.push (.reg 5)) ∧ decode 0x1801FFFE = .ok (.push (.const 0xFFFE)) ∧
    decode 0x2183FFFF = .ok (.pop 6) := by decide
/-- Format J, unconditional, in all four modes; bit 17 is ignored (R88). -/
theorem test_decode_jmp :
    decode 0x28010010 = .ok (.jmp (.absolute 0x0010)) ∧ decode 0x28000003 = .ok (.jmp (.pcRelative 3)) ∧
    decode 0x29C10000 = .ok (.jmp (.regDirect 7)) ∧ decode 0x29C0FFFF = .ok (.jmp (.indexed 7 0xFFFF)) ∧
    decode 0x28030010 = .ok (.jmp (.absolute 0x0010)) := by decide
/-- The Jump Condition table (R91). -/
theorem test_decode_conditions :
    decode 0x28210010 = .ok (.jc (.absolute 0x0010)) ∧ decode 0x28110010 = .ok (.jn (.absolute 0x0010)) ∧
    decode 0x28090010 = .ok (.jv (.absolute 0x0010)) ∧ decode 0x28050010 = .ok (.jz (.absolute 0x0010)) ∧
    decode 0x281D0010 = .ok (.jnc (.absolute 0x0010)) ∧ decode 0x282D0010 = .ok (.jnn (.absolute 0x0010)) ∧
    decode 0x28350010 = .ok (.jnv (.absolute 0x0010)) ∧ decode 0x28390010 = .ok (.jnz (.absolute 0x0010)) ∧
    decode 0x28190010 = .ok (.jge (.absolute 0x0010)) ∧ decode 0x28250010 = .ok (.jl (.absolute 0x0010)) := by decide
/-- CALL, RET, RETI. -/
theorem test_decode_callReturn :
    decode 0x32400002 = .ok (.call (.indexed 9 2)) ∧ decode 0x30010200 = .ok (.call (.absolute 0x0200)) ∧
    decode 0x38000000 = .ok .ret ∧ decode 0x38010000 = .ok .reti := by decide
/-- Format A: the register and the constant form; NOT ignores bits [16:0], the register form bits [11:1] (R88). -/
theorem test_decode_alu :
    decode 0x40422FFE = .ok (.add 1 1 (.reg 2)) ∧ decode 0x48840003 = .ok (.sub 2 2 (.const 1)) ∧
    decode 0x52422000 = .ok (.cmp 1 (.reg 2)) ∧ decode 0x58C9FFFF = .ok (.not 3 4) ∧
    decode 0x60C801FF = .ok (.and 3 4 (.const 0x00FF)) ∧ decode 0x68C85000 = .ok (.bic 3 4 (.reg 5)) ∧
    decode 0x70C90001 = .ok (.or 3 4 (.const 0x8000)) ∧ decode 0x78C85000 = .ok (.xor 3 4 (.reg 5)) := by decide
/-- Format S: the constant and the register form (R86, R92). -/
theorem test_decode_shift_const :
    decode 0x80C81801 = .ok (.srl 3 4 (.const 3)) ∧ decode 0x80C81803 = .ok (.sll 3 4 (.const 3)) ∧
    decode 0x80C81805 = .ok (.sra 3 4 (.const 3)) ∧ decode 0x80C81809 = .ok (.rtr 3 4 (.const 3)) ∧
    decode 0x80C8180B = .ok (.rtl 3 4 (.const 3)) ∧ decode 0x80C8180D = .ok (.rrc 3 4 (.const 3)) ∧
    decode 0x80C8180F = .ok (.rlc 3 4 (.const 3)) := by decide
theorem test_decode_shift_reg :
    decode 0x80C85000 = .ok (.srl 3 4 (.reg 5)) ∧ decode 0x80C85002 = .ok (.sll 3 4 (.reg 5)) ∧
    decode 0x80C85004 = .ok (.sra 3 4 (.reg 5)) ∧ decode 0x80C85008 = .ok (.rtr 3 4 (.reg 5)) ∧
    decode 0x80C8500A = .ok (.rtl 3 4 (.reg 5)) ∧ decode 0x80C8500C = .ok (.rrc 3 4 (.reg 5)) ∧
    decode 0x80C8500E = .ok (.rlc 3 4 (.reg 5)) := by decide
/-- The FPU's opcodes. -/
theorem test_decode_fpu :
    decode 0x88C80005 = .ok (.fa 3 4 (.const 2)) ∧ decode 0x90C85000 = .ok (.fs 3 4 (.reg 5)) ∧
    decode 0x98C85000 = .ok (.fm 3 4 (.reg 5)) ∧ decode 0xA0C85000 = .ok (.fd 3 4 (.reg 5)) ∧
    decode 0xA8C80000 = .ok (.fti 3 4) ∧ decode 0xB0C80000 = .ok (.itf 3 4) := by decide
/-- The illegal words of R93. -/
theorem test_decode_illegal :
    decode 0xB8000000 = .error .unassignedOpcode ∧ decode 0xF8000000 = .error .unassignedOpcode ∧
    decode 0x280D0010 = .error .unlistedCondition ∧ decode 0x28150010 = .error .unlistedCondition ∧
    decode 0x28290010 = .error .unlistedCondition ∧ decode 0x28310010 = .error .unlistedCondition ∧
    decode 0x283D0010 = .error .unlistedCondition ∧ decode 0x80C80007 = .error .unlistedShift ∧
    decode 0x30210200 = .error .conditionOnCallOrReturn ∧ decode 0x38040000 = .error .conditionOnCallOrReturn := by decide
/-- The table's numbering is the word's own (R80). -/
theorem test_decodeTableWord :
    decodeTableWord 32 0x48840003 = some (.sub 2 2 (.const 1)) ∧ decodeTableWord 32 0xB8000000 = none := by decide
/-- The encoder against the same words. -/
theorem test_encode :
    encode (.ld 2 (.indexed 1 0x0200)) = 0x00820200 ∧ encode (.jnz (.absolute 2)) = 0x28390002 ∧
    encode (.add 1 1 (.reg 2)) = 0x40422000 ∧ encode (.sll 1 1 (.const 1)) = 0x80420803 ∧ encode .reti = 0x38010000 := by decide

/-! ## Load and store -/

/-- LD, Indexed with a wrap of the address (16 bits). -/
theorem test_ld_wraps :
    seen (runWord 0x00820001 ((withRegs [(1, 0x0000FFFF)]).loadDm [(0, 0x0000AAAA)]))
      (fun t => t.reg 2 == 0x0000AAAA && t.pc == 1) = true := by decide
/-- LD, PC Relative: the base is the address after the instruction (decision D5). -/
theorem test_ld_pcRelative :
    seen (runWord 0x0080FFFF (({ State.reset with pc := 0x0010 } : State).loadDm [(0x0010, 0x77), (0x000F, 0x66)]))
      (fun t => t.reg 2 == 0x77 && t.pc == 0x0011) = true := by decide
/-- ST through Register Direct. -/
theorem test_st_regDirect :
    seen (runWord 0x08450000 (withRegs [(1, 0x22), (2, 0x300)]))
      (fun t => Memory.read t.dm 0x300 == some 0x22 && t.dm.length == 1) = true := by decide
/-- ST to the LED port is an output event and leaves DM alone; 0x3FFA is ordinary memory. -/
theorem test_st_port :
    seen (runWord 0x08413FFF (withRegs [(1, 0xA5)])) (fun t => t.events == [.write 0x3FFF 0xA5] && t.dm.isEmpty) = true ∧
    seen (runWord 0x08413FFA (withRegs [(1, 1)])) (fun t => t.events.isEmpty && t.dm == [(0x3FFA, 1)]) = true := by decide
/-- LD from the switches takes the environment's answer. -/
theorem test_ld_port :
    seen (runWord 0x00813FFE { State.reset with portIn := [0x0F, 0x0E] })
      (fun t => t.reg 2 == 0x0F && t.portIn == [0x0E] && t.events == [.read 0x3FFE 0x0F]) = true := by decide

/-! ## Data transfer -/

/-- CPY sign-extends its constant (decision D8). -/
theorem test_cpy_const : seen (runWord 0x10418000 State.reset) (fun t => t.reg 1 == 0xFFFF8000 && t.sr == 0) = true := by decide
/-- CPY to R0 writes all of SR (R29). -/
theorem test_cpy_sr : seen (runWord 0x10010040 (withRegs [(0, 0x0F)])) (fun t => t.sr == 0x40) = true := by decide
/-- PUSH of a constant on a stack of one entry. -/
theorem test_push_const :
    seen (runWord 0x1801FFFE (withStack [1] State.reset))
      (fun t => t.sp == 2 && t.hs[0] == 1 && t.hs[1] == 0xFFFFFFFE) = true := by decide
/-- PUSH on a full stack stops. -/
theorem test_push_full : stops (runWord 0x180A0000 { State.reset with sp := 16 }) .stackOverflow = true := by decide
/-- POP takes the top word. -/
theorem test_pop :
    seen (runWord 0x21800000 (withStack [1, 2] State.reset)) (fun t => t.reg 6 == 2 && t.sp == 1 && t.hs[0] == 1) = true := by decide
/-- POP of an empty stack stops. -/
theorem test_pop_empty : stops (runWord 0x21800000 State.reset) .stackUnderflow = true := by decide

/-! ## Flow control -/

/-- Which of a jump's eight SR values of spec/95's table take it; `pc` is 0x0004, the target 0x0010. -/
def takenBy (w : Nat) : List Bool :=
  [0x00, 0x01, 0x02, 0x04, 0x08, 0x10, 0x20, 0x3F].map fun sr =>
    seen (runWord w { withRegs [(0, sr)] with pc := 4 }) (fun t => t.pc == 0x0010)

theorem test_jmp_jc :
    takenBy 0x28010010 = [true, true, true, true, true, true, true, true] ∧
    takenBy 0x28210010 = [false, true, false, false, false, false, false, true] := by decide
theorem test_jn_jv_jz :
    takenBy 0x28110010 = [false, false, true, false, false, false, false, true] ∧
    takenBy 0x28090010 = [false, false, false, true, false, false, false, true] ∧
    takenBy 0x28050010 = [false, false, false, false, true, false, false, true] := by decide
theorem test_jnc_jnn :
    takenBy 0x281D0010 = [true, false, true, true, true, true, true, false] ∧
    takenBy 0x282D0010 = [true, true, false, true, true, true, true, false] := by decide
theorem test_jnv_jnz :
    takenBy 0x28350010 = [true, true, true, false, true, true, true, false] ∧
    takenBy 0x28390010 = [true, true, true, true, false, true, true, false] := by decide
theorem test_jge_jl :
    takenBy 0x28190010 = [false, false, false, false, false, true, false, true] ∧
    takenBy 0x28250010 = [false, false, false, false, false, false, true, true] := by decide
/-- Targets: PC Relative to itself, Register Direct (the upper half is dropped), Indexed backwards. -/
theorem test_jmp_modes :
    seen (runWord 0x2800FFFF { State.reset with pc := 0x0100 }) (fun t => t.pc == 0x0100) = true ∧
    seen (runWord 0x29C10000 (withRegs [(7, 0x00012345)])) (fun t => t.pc == 0x2345) = true ∧
    seen (runWord 0x29C0FFFF (withRegs [(7, 0x00002000)])) (fun t => t.pc == 0x1FFF) = true := by decide
/-- A jump not taken goes on at the next instruction. -/
theorem test_jump_notTaken : seen (runWord 0x28210010 { State.reset with pc := 4 }) (fun t => t.pc == 5) = true := by decide
/-- CALL pushes the return address, then SR. -/
theorem test_call :
    seen (runWord 0x32410000 (withStack [0xAA] { withRegs [(9, 0x300)] with pc := 0x0010 }))
      (fun t => t.pc == 0x0300 && t.sp == 3 && t.hs[0] == 0xAA && t.hs[1] == 0x11 && t.hs[2] == 0) = true := by decide
/-- CALL with one free entry stops. -/
theorem test_call_full : stops (runWord 0x30010200 { State.reset with sp := 15 }) .stackOverflow = true := by decide
/-- RET pops SR, then pc, whose upper half is ignored. -/
theorem test_ret :
    seen (runWord 0x38000000 (withStack [0xFFFF0011, 0x3FC0] State.reset))
      (fun t => t.pc == 0x0011 && t.sr == 0x3FC0 && t.sp == 0) = true := by decide
/-- RET with one entry stops. -/
theorem test_ret_short : stops (runWord 0x38000000 (withStack [7] State.reset)) .stackUnderflow = true := by decide

/-! ## Interrupts -/

/-- P4's machine at step 5: ISR_0 enabled and requested, its vector word in PM. -/
def p4 : State :=
  { (withRegs [(0, 0x40), (5, 1), (24, 0)]).loadPm [(0xFFF0, 0x28010040)] with pc := 3, irqIn := [1] }

/-- Interrupt entry (R216; spec/95, program P4, step 5). -/
theorem test_interruptEntry :
    seen (step p4) (fun t => t.pc == 0x0040 && t.sp == 2 && t.hs[0] == 3 && t.hs[1] == 0x40 && t.sh[0] == 0x40 && t.sh[5] == 1
      && t.inIsr && t.sr == 0x40) = true := by decide
/-- Priority and enables (R214): source 0 requests but is not enabled, source 3 is taken. -/
theorem test_priority :
    ({ withRegs [(0, 0x0200)] with irqIn := [0b00001001] } : State).taken = some 3 ∧
    ({ withRegs [(0, 0x0C00)] with irqIn := [0b00110000] } : State).taken = some 4 ∧
    ({ withRegs [(0, 0x0249)] with irqIn := [0b00001001] } : State).taken = some 0 ∧
    ({ withRegs [(0, 0x3000)] with irqIn := [0b11000000] } : State).taken = none ∧
    ({ withRegs [(0, 0x0080)] with irqIn := [0b00000001] } : State).taken = none ∧
    ({ withRegs [(0, 0x0040)] with irqIn := [0b00000001], inIsr := true } : State).taken = none := by decide
/-- Entry with one free stack entry stops. -/
theorem test_interruptEntry_full : stops (step { p4 with sp := 15 }) .stackOverflow = true := by decide
/-- RETI restores R0 … R23 and keeps R24 … R31 (spec/95, program P4, step 9). -/
theorem test_reti :
    seen (runWord 0x38010000 (withStack [3, 0x40]
        { withRegs [(0, 0x48), (5, 7), (24, 1)] with
          inIsr := true, pc := 0x43, sh := ((Vector.replicate 24 0).set 0 0x40).set 5 1 }))
      (fun t => t.pc == 3 && t.sp == 0 && t.sr == 0x40 && t.reg 5 == 1 && t.reg 24 == 1 && !t.inIsr) = true := by decide
/-- RETI outside a service routine stops. -/
theorem test_reti_outside : stops (runWord 0x38010000 (withStack [3, 0x40] State.reset)) .retiOutsideIsr = true := by decide

/-! ## Integer arithmetic and logic -/

/-- x[1], x[2] to x[3] and SR, from SR = 0. -/
def alu (w : Nat) (a b r sr : Word) : Bool :=
  seen (runWord w (withRegs [(1, a), (2, b)])) (fun t => t.reg 3 == r && t.sr == sr && t.pc == 1)

theorem test_add_overflows : alu 0x40C22000 0x7FFFFFFF 0x00000001 0x80000000 0x06 = true := by decide
theorem test_add_carries : alu 0x40C22000 0x80000000 0x80000000 0x00000000 0x0D = true := by decide
theorem test_sub_borrows : alu 0x48C22000 0x00000003 0x00000005 0xFFFFFFFE 0x02 = true := by decide
theorem test_sub_overflows : alu 0x48C22000 0x80000000 0x00000001 0x7FFFFFFF 0x05 = true := by decide
/-- ADD to R0: the sum is SR and no flag is updated; ADD from R0 reads SR (R160). -/
theorem test_add_r0 :
    seen (runWord 0x40022000 (withRegs [(1, 0xFFFFFFFF), (2, 1)])) (fun t => t.sr == 0) = true ∧
    seen (runWord 0x40C00000 (withRegs [(0, 0x41)])) (fun t => t.reg 3 == 0x82 && t.sr == 0x40) = true := by decide
/-- CMP's six flags, signed order with a borrow and with an overflow; bits 31:6 are kept. -/
theorem test_cmp :
    seen (runWord 0x50022000 (withRegs [(1, 0x80000000), (2, 1)])) (fun t => t.sr == 0x25) = true ∧
    seen (runWord 0x50022000 (withRegs [(1, 1), (2, 0xFFFFFFFF)])) (fun t => t.sr == 0x10) = true ∧
    seen (runWord 0x52422000 (withRegs [(0, 0xFFFFFFC0), (1, 1), (2, 1)])) (fun t => t.sr == 0xFFFFFFD9) = true := by decide

/-- x[4] = 0xF0F0A5A5, x[5] = 0x0FF0FF00, SR = 0x35 to x[3] and SR. -/
def logic (w : Nat) (r sr : Word) : Bool :=
  seen (runWord w (withRegs [(0, 0x35), (4, 0xF0F0A5A5), (5, 0x0FF0FF00)])) (fun t => t.reg 3 == r && t.sr == sr)

theorem test_not : logic 0x58C80000 0x0F0F5A5A 0x35 = true := by decide
theorem test_and : logic 0x60C85000 0x00F0A500 0x35 = true ∧ logic 0x60C9FFFF 0xF0F0A5A5 0x37 = true := by decide
theorem test_bic : logic 0x68C85000 0xF00000A5 0x37 = true ∧ logic 0x68C9FFFF 0x00000000 0x3D = true := by decide
theorem test_or : logic 0x70C85000 0xFFF0FFA5 0x37 = true ∧ logic 0x70C90001 0xFFFFA5A5 0x37 = true := by decide
theorem test_xor : logic 0x78C85000 0xFF005AA5 0x37 = true ∧ logic 0x78C84000 0x00000000 0x3D = true := by decide
/-- AND to R0 suppresses the flag update (R160). -/
theorem test_and_r0 : seen (runWord 0x60000001 (withRegs [(0, 0x3FFF)])) (fun t => t.sr == 0) = true := by decide

/-! ## Shifts and rotates -/

/-- The one-position steps counted `n` times on 0x80000001 with C clear: SRL, SLL, SRA, RTR, RTL, RRC, RLC. -/
def rows (n : Nat) : List (Word × Bool) :=
  [stepSrl, stepSll, stepSra, stepRtr, stepRtl, stepRrc, stepRlc].map (iterateStep · n (0x80000001, false))

theorem test_shift_by4 :
    rows 4 = [(0x08000000, false), (0x00000010, false), (0xF8000000, false), (0x18000000, false), (0x00000018, false),
      (0x28000000, false), (0x00000014, false)] := by decide
set_option maxRecDepth 4000 in
theorem test_shift_by32 :
    rows 32 = [(0x00000000, false), (0x00000000, false), (0xFFFFFFFF, false), (0x80000001, false), (0x80000001, false),
      (0x00000002, true), (0x40000000, true)] := by decide
set_option maxRecDepth 4000 in
/-- SRL by a register count of 32: zero, with Z. -/
theorem test_srl : seen (runWord 0x80C85000 (withRegs [(4, 0x80000000), (5, 32)])) (fun t => t.reg 3 == 0 && t.sr == 8) = true := by decide
/-- SLL by a register count: its low six bits (decision D13). -/
theorem test_sll : seen (runWord 0x80C85002 (withRegs [(4, 1), (5, 0x44)])) (fun t => t.reg 3 == 0x10 && t.sr == 0) = true := by decide
set_option maxRecDepth 4000 in
theorem test_sra :
    seen (runWord 0x80C85004 (withRegs [(4, 0x80000000), (5, 40)])) (fun t => t.reg 3 == 0xFFFFFFFF && t.sr == 2) = true := by decide
theorem test_rtr : seen (runWord 0x80C80809 (withRegs [(0, 1), (4, 0x80000001)])) (fun t => t.reg 3 == 0xC0000000 && t.sr == 3) = true := by decide
theorem test_rtl : seen (runWord 0x80C8080B (withRegs [(0, 1), (4, 0x80000001)])) (fun t => t.reg 3 == 3 && t.sr == 1) = true := by decide
theorem test_rrc : seen (runWord 0x80C8080D (withRegs [(0, 1), (4, 0x12345678)])) (fun t => t.reg 3 == 0x891A2B3C && t.sr == 2) = true := by decide
theorem test_rlc : seen (runWord 0x80C8080F (withRegs [(0, 1), (4, 0x12345678)])) (fun t => t.reg 3 == 0x2468ACF1 && t.sr == 0) = true := by decide

/-! ## Floating point -/

/-- Operand routing with the functions left free; no flag changes (R191 – R197). -/
theorem test_fpu_routing :
    exec (.fs 3 4 (.reg 5)) (withRegs [(0, 0x3F), (4, 7), (5, 9)]) =
      .next ((withRegs [(0, 0x3F), (4, 7), (5, 9)]).setReg 3 (config.fp.sub 7 9)).advance := rfl
theorem test_fpu_constant :
    exec (.fd 3 4 (.const 2)) (withRegs [(4, 7)]) = .next ((withRegs [(4, 7)]).setReg 3 (config.fp.div 7 2)).advance := rfl

/-- R199's instantiation against spec/95's FPU table. -/
theorem test_ieee_add :
    addIeee 0x3DCCCCCD 0x3E4CCCCD = 0x3E99999A ∧ addIeee 0x7F800000 0xFF800000 = 0x7FC00000 ∧ addIeee 0 2 = 2 := by decide
theorem test_ieee_sub : subIeee 0x40B00000 0x3F000000 = 0x40A00000 ∧ subIeee 0x3F800000 0x3F800000 = 0 := by decide
theorem test_ieee_mul : mulIeee 0x40000000 0x40400000 = 0x40C00000 ∧ mulIeee 0xC0000000 0 = 0x80000000 := by decide
theorem test_ieee_div :
    divIeee 0x3F800000 0x40400000 = 0x3EAAAAAB ∧ divIeee 0x3F800000 0 = 0x7F800000 ∧ divIeee 0 0 = 0x7FC00000 := by decide
theorem test_ieee_toInt :
    toIntIeee 0x40490FDB = some 3 ∧ toIntIeee 0xC0300000 = some 0xFFFFFFFE ∧ toIntIeee 0x4EFFFFFF = some 0x7FFFFF80 := by decide
theorem test_ieee_fromInt :
    fromIntIeee 0x01000001 = 0x4B800000 ∧ fromIntIeee 0x80000000 = 0xCF000000 ∧ fromIntIeee 0x7FFFFFFF = 0x4F000000 := by decide

/-! ## Witnesses: for each obligation with hypotheses, states and operands that meet them all, clause by clause -/

/-- A reset state with two instructions loaded: CPY R1,#5; ST R1,[0x0100]. -/
def twoWords : State := State.reset.loadPm [(0, 0x10410005), (1, 0x08410100)]

/-- The premise of the acceptance statements: nothing is taken. -/
def Quiet (s : State) : Prop :=
  s.inIsr = true ∨ ∀ n : Fin 8, ((s.reg 0).getLsbD (6 + n.val) && requested s n) = false

/-- The premise of the entry statements: `n` is the smallest source that is requested and enabled, outside a service routine. -/
def Smallest (s : State) (n : Fin 8) : Prop :=
  s.inIsr = false ∧ ((s.reg 0).getLsbD (6 + n.val) && requested s n) = true ∧
    ∀ m : Fin 8, m < n → ((s.reg 0).getLsbD (6 + m.val) && requested s m) = false

/-- A step that stores: the two memories of the next state differ from those before. -/
def storing : State := (withRegs [(1, 7)]).withFetchWord 32 0x08413FFA

theorem witness_StepKeepsInvariant : StateInv storing ∧ ∃ t, step storing = .next t ∧ t.dm = [(0x3FFA, 7)] :=
  ⟨by unfold StateInv; decide, _, rfl, by decide⟩
theorem witness_LoadedRunKeepsInvariant :
    ∃ t, Host.Core.run Sys2Proof.core 2 ((State.reset.loadPm [(0, 0x10410005), (1, 0x08410100)]).loadDm [(9, 9)]) = .next t ∧
      t.dm = [(9, 9), (0x0100, 5)] := ⟨_, rfl, by decide⟩
/-- An image with other words than `twoWords` but for the word at pc: the step looks at nothing else of PM. -/
theorem witness_ProgramMemoryConstant_otherImage :
    ∀ a, a = twoWords.pc.toNat ∨ (0xFFF0 ≤ a ∧ a ≤ 0xFFFE) →
      Memory.read [(0, 0x10410005), (1, 0xFFFFFFFF)] a = Memory.read twoWords.pm a := by
  rintro a (rfl | ⟨h, -⟩)
  · decide
  · have h0 : ¬(0 : Nat) = a := by omega
    have h1 : ¬(1 : Nat) = a := by omega
    show Memory.read [(0, 0x10410005), (1, 0xFFFFFFFF)] a = Memory.read [(0, 0x10410005), (1, 0x08410100)] a
    simp [Memory.read, h0, h1]
theorem witness_ProgramMemoryConstant_words :
    [0x0000, 0x3FFA, 0x4000, 0xFFDF].all (fun a : Addr => isIo (effAddr (.absolute a) State.reset) == false) = true := by decide
theorem witness_ProgramMemoryConstant_instructions :
    (∀ ri m, Instr.push (.reg 5) ≠ .ld ri m) ∧ (∀ ri m, Instr.push (.reg 5) ≠ .st ri m) ∧
      ∃ ri m, Instr.st 2 (.absolute 9) = .ld ri m ∨ Instr.st 2 (.absolute 9) = .st ri m :=
  ⟨fun _ _ => nofun, fun _ _ => nofun, 2, .absolute 9, .inr rfl⟩
/-- The steps that touch no data: an interrupt entry, a fetch that fails, a CPY. -/
theorem witness_ProgramMemoryConstant_steps :
    p4.taken = some 0 ∧ (State.reset.taken = none ∧ fetchDecode State.reset = .error (.unwrittenRead 0)) ∧
      twoWords.taken = none ∧ fetchDecode twoWords = .ok (.cpy 1 (.const 5)) := by decide
/-- A step whose fetched instruction is a store. -/
theorem witness_ProgramMemoryConstant_fetch :
    ({ twoWords with pc := 1 } : State).taken = none ∧
      fetchDecode { twoWords with pc := 1 } = .ok (.st 1 (.absolute 0x0100)) := by decide
theorem witness_ProgramMemoryConstant : ∃ t, Host.Core.run Sys2Proof.core 2 twoWords = .next t ∧ t.dm = [(0x0100, 5)] :=
  ⟨_, rfl, by decide⟩
theorem witness_StepRunsDecodedInstruction_enablesOff :
    Quiet twoWords ∧ Memory.read twoWords.pm twoWords.pc.toNat = some 0x10410005 ∧
      decode 0x10410005 = .ok (.cpy 1 (.const 5)) := by
  refine ⟨.inr ?_, ?_, ?_⟩ <;> decide
theorem witness_StepRunsDecodedInstruction_inIsr :
    Quiet { twoWords with inIsr := true, irqIn := [1], x := (withRegs [(0, 0x40)]).x } ∧
      Memory.read twoWords.pm twoWords.pc.toNat = some 0x10410005 := ⟨.inl rfl, by decide⟩
theorem witness_StepFaultsWithoutInstruction_illegal :
    Quiet (State.reset.loadPm [(0, 0xB8000000)]) ∧ Memory.read (State.reset.loadPm [(0, 0xB8000000)]).pm 0 = some 0xB8000000 ∧
      decode 0xB8000000 = .error .unassignedOpcode := by
  refine ⟨.inr ?_, ?_, ?_⟩ <;> decide
theorem witness_StepFaultsWithoutInstruction_unlisted :
    Quiet { twoWords with pc := 2 } ∧ Memory.read twoWords.pm (2 : Addr).toNat = none := by
  refine ⟨.inr ?_, ?_⟩ <;> decide
theorem witness_EndOfRunLoops_absolute : AtEnd ({ State.reset.loadPm [(6, 0x28010006)] with pc := 6 }) :=
  ⟨⟨0x28010006, .absolute 6, by decide, by decide, .inl rfl⟩, .inl (by decide)⟩
theorem witness_EndOfRunLoops_pcRelative : AtEnd ({ State.reset.loadPm [(0xFFFF, 0x2800FFFF)] with pc := 0xFFFF }) :=
  ⟨⟨0x2800FFFF, .pcRelative 0xFFFF, by decide, by decide, .inr rfl⟩, .inl (by decide)⟩
/-- ISR_0 enabled at the jump to itself (spec/95, program P4, its last state), with levels at hand that request nothing. -/
def p4End : State :=
  { (withRegs [(0, 0x40), (5, 1), (24, 1)]).loadPm [(3, 0x28010003)] with pc := 3, irqIn := [0, 0xC0] }
theorem witness_EndOfRunLoops_noRequestFor : AtSelfJump p4End ∧ NoRequestFor 2 p4End :=
  ⟨⟨0x28010003, .absolute 3, by decide, by decide, .inl rfl⟩, by unfold NoRequestFor; decide⟩
/-- The end with an enable bit set, for an environment that raises no further request. -/
theorem witness_EndOfRunLoops_noFurtherRequest (quiet : ∀ d, Config.freeIrq d &&& 0x3F = 0) : AtEnd p4End := by
  refine ⟨witness_EndOfRunLoops_noRequestFor.1, .inr fun _ k _ => ?_⟩
  match k with
  | 0 | 1 => rfl
  | k + 2 => exact quiet _
/-- The first arrival: CPY R1,#5, then the jump to itself. -/
theorem witness_EndOfRunLoops_firstArrival :
    ∃ t, EndsAt 1 (State.reset.loadPm [(0, 0x10410005), (1, 0x28010001)]) t := by
  refine ⟨_, rfl, ⟨⟨0x28010001, .absolute 1, by decide, by decide, .inl rfl⟩, .inl (by decide)⟩, ?_⟩
  intro k hk u hu
  obtain rfl : k = 0 := by omega
  cases hu
  rintro ⟨⟨w, m, hw, hd, -⟩, -⟩
  obtain rfl : 0x10410005 = w := Option.some.inj hw
  cases hd
theorem witness_AcceptanceTakesSmallest_least : Smallest { withRegs [(0, 0x3FC0)] with irqIn := [0xFF] } 0 := by
  refine ⟨?_, ?_, ?_⟩ <;> decide
theorem witness_AcceptanceTakesSmallest_greatest : Smallest { withRegs [(0, 0x3800)] with irqIn := [0xFF] } 5 := by
  refine ⟨?_, ?_, ?_⟩ <;> decide
theorem witness_AcceptanceTakesSmallest_quiet :
    Quiet { twoWords with irqIn := [0xFF] } ∧ fetchDecode ({ twoWords with irqIn := [0xFF] } : State).sampled = .ok (.cpy 1 (.const 5)) ∧
      Quiet State.reset ∧ fetchDecode State.reset.sampled = .error (.unwrittenRead 0) := by
  refine ⟨.inr ?_, ?_, .inr ?_, ?_⟩ <;> decide
theorem witness_InterruptEntrySavesAndVectors_first : Smallest p4 0 ∧ p4.sp.val ≤ 14 ∧ Memory.read p4.pm (0xFFF0 + 2 * 0) = some 0x28010040 := by
  refine ⟨⟨?_, ?_, ?_⟩, ?_, ?_⟩ <;> decide
theorem witness_InterruptEntrySavesAndVectors_last :
    Smallest { (withRegs [(0, 0x0800)]).loadPm [(0xFFFA, 0x28010150)] with sp := 14, irqIn := [0x20] } 5 ∧
      Memory.read ((withRegs [(0, 0x0800)]).loadPm [(0xFFFA, 0x28010150)]).pm (0xFFF0 + 2 * 5) = some 0x28010150 := by
  refine ⟨⟨?_, ?_, ?_⟩, ?_⟩ <;> decide
theorem witness_InterruptEntryFaults :
    Smallest { p4 with sp := 15 } 0 ∧ 15 ≤ ({ p4 with sp := 15 } : State).sp.val ∧
      Smallest { p4 with sp := 14, pm := [] } 0 ∧ Memory.read ({ p4 with sp := 14, pm := [] } : State).pm (0xFFF0 + 2 * 0) = none := by
  refine ⟨⟨?_, ?_, ?_⟩, ?_, ⟨?_, ?_, ?_⟩, ?_⟩ <;> decide
theorem witness_UnusedSourcesNeverTaken_greatest :
    ({ withRegs [(0, 0x3800)] with irqIn := [0xE0] } : State).taken = some 5 := by decide
theorem witness_UnusedSourcesNeverTaken :
    (∀ n : Fin 8, n.val < 6 → ((withRegs [(0, 0x3000)]).reg 0).getLsbD (6 + n.val) = false) ∧
      fetchDecode { (withRegs [(0, 0x3000)]).loadPm [(0, 0x38010000)] with irqIn := [0xC0] } = .ok .reti := by
  refine ⟨?_, ?_⟩ <;> decide
/-- The state with another word above the depth, as a PUSH and a POP leave it, and with R5 changed. -/
def disturbed (s : State) : State := { s.setReg 5 7 with hs := s.hs.set 15 99 }
/-- An entry below the top one reads as before. -/
theorem disturbed_hs (s : State) {k : Nat} (h : k < 15) : (disturbed s).hs[k]? = s.hs[k]? := by
  simp [disturbed, (Nat.ne_of_lt h).symm]
theorem disturbed_sh (s : State) : (disturbed s).sh = s.sh := rfl
theorem witness_InterruptThenReti :
    ∃ t, p4.inIsr = false ∧ enterInterrupt 0 p4 = .ok t ∧ (∀ k, k < t.sp.val → (disturbed t).hs[k]? = t.hs[k]?) ∧
      (disturbed t).hs[15]? = some 99 ∧ (disturbed t).sp = t.sp ∧ (disturbed t).sh = t.sh ∧ (disturbed t).inIsr = t.inIsr :=
  ⟨_, rfl, enterInterrupt_ok 0 p4 (w := 0x28010040) (by decide) (by decide),
    fun _ h => disturbed_hs _ (Nat.lt_trans h (by decide)), by simp [disturbed], rfl, disturbed_sh _, rfl⟩
theorem witness_DecodeOfEncode :
    (Instr.ld 31 (.indexed 1 0xFFFF)).wf = true ∧ (Instr.jl (.regDirect 31)).wf = true ∧ (Instr.call (.pcRelative 0)).wf = true ∧
      (Instr.st 0 (.absolute 0xFFFF)).wf = true := by decide
theorem witness_EncodeOfDecode : decode 0x40422FFE = .ok (.add 1 1 (.reg 2)) := by decide
theorem witness_UnusedBitsAreIgnored :
    decode 0x40422000 = .ok (.add 1 1 (.reg 2)) ∧
      (0x40422FFE : Word) &&& usedBits (.add 1 1 (.reg 2)) = 0x40422000 &&& usedBits (.add 1 1 (.reg 2)) := by decide
theorem witness_DecodedIsWellFormed : decode 0x00830000 = .ok (.ld 2 (.regDirect 1)) := by decide
/-- The four rows of the table, at the first and the last index register, with a wrap in each sum. -/
theorem witness_EffectiveAddressTable :
    effAddr (addrModeOf 1 0 0xFFFF) (withRegs [(1, 0xABCD0003)]) = 0x0002 ∧
    effAddr (addrModeOf 31 1 0xFFFF) (withRegs [(31, 0xFFFFFFFF)]) = 0xFFFF ∧
    effAddr (addrModeOf 0 0 1) { State.reset with pc := 0xFFFF } = 1 ∧
    effAddr (addrModeOf 0 1 0xFFFF) State.reset = 0xFFFF := by decide
/-- A loaded word beside the ports: its address is no port and it is listed. -/
def besidePorts (a : Addr) : Bool :=
  decide (¬IsPort (effAddr (.absolute a) (State.reset.loadDm [(a, 7)])).toNat) &&
    Memory.read (State.reset.loadDm [(a, 7)]).dm (effAddr (.absolute a) (State.reset.loadDm [(a, 7)])).toNat == some 7
theorem witness_LoadResult_memory : [0x0000, 0x3FFA, 0x4000, 0xFFDF].all besidePorts = true := by decide
/-- The ends of both port ranges are ports, with and without an answer at hand. -/
theorem witness_LoadResult_ports :
    [0x3FFB, 0x3FFF, 0xFFE0, 0xFFFF].all (fun a : Addr => decide (IsPort (effAddr (.absolute a) State.reset).toNat)) = true ∧
      State.reset.portIn = [] ∧ ({ State.reset with portIn := [5] } : State).portIn = [5] := by decide
theorem witness_LoadOfUnwrittenWord :
    ¬IsPort (effAddr (.absolute 0x3FFA) State.reset).toNat ∧
      Memory.read State.reset.dm (effAddr (.absolute 0x3FFA) State.reset).toNat = none := by decide
theorem witness_StoreResult :
    IsPort (effAddr (.absolute 0xFFE0) State.reset).toNat ∧ ¬IsPort (effAddr (.absolute 0xFFDF) State.reset).toNat := by decide
/-- The decoding clauses of the instruction statements: a word of each opcode, and of each condition of group JMP. -/
theorem witness_decodingClauses :
    (0x10410005 : Word).extractLsb' 27 5 = 2#5 ∧ (0x180A0000 : Word).extractLsb' 27 5 = 3#5 ∧
      (0x21800000 : Word).extractLsb' 27 5 = 4#5 ∧ (0x28010010 : Word).extractLsb' 27 5 = 5#5 ∧
      (0x28010010 : Word).extractLsb' 18 4 = 0b0000#4 ∧ (0x28390002 : Word).extractLsb' 27 5 = 5#5 ∧
      (0x28390002 : Word).extractLsb' 18 4 = 0b1110#4 ∧ (0x40422000 : Word).extractLsb' 27 5 = 8#5 ∧
      (0x88C85000 : Word).extractLsb' 27 5 = 17#5 ∧ (0xA0C85000 : Word).extractLsb' 27 5 = 20#5 := by decide
theorem witness_StoreThenLoad :
    ¬IsPort (effAddr (.absolute 0x0100) State.reset).toNat ∧
    (∀ t, exec (.st 1 (.absolute 0x0100)) State.reset = .next t → effAddr (.pcRelative 0x00FE) t = effAddr (.absolute 0x0100) State.reset) ∧
    (0x0101 : Addr) ≠ effAddr (.absolute 0x0100) State.reset ∧ ¬IsPort (0x0101 : Addr).toNat := by
  refine ⟨by decide, ?_, by decide, by decide⟩
  intro t h
  cases h
  decide
theorem witness_PushResult : ({ State.reset with sp := 15 } : State).sp.val < 16 ∧ ({ State.reset with sp := 16 } : State).sp.val = 16 := by
  decide
theorem witness_PopResult : 0 < ({ State.reset with sp := 1 } : State).sp.val ∧ State.reset.sp.val = 0 := by decide
theorem witness_PushThenPop : ({ State.reset with sp := 15 } : State).sp.val < 16 := by decide
theorem witness_FlagJumps_OrderJumps :
    ((withRegs [(0, 0x20)]).reg 0).getLsbD 5 = true ∧ ((withRegs [(0, 0x20)]).reg 0).getLsbD 4 = false := by decide
theorem witness_CallResult : ({ State.reset with sp := 14 } : State).sp.val ≤ 14 ∧ 15 ≤ ({ State.reset with sp := 15 } : State).sp.val := by
  decide
theorem witness_RetResult :
    2 ≤ ({ State.reset with sp := 2 } : State).sp.val ∧ ({ State.reset with sp := 1 } : State).sp.val < 2 ∧
      (0x38020000 : Word).extractLsb' 27 5 = 7#5 ∧ (0x38020000 : Word).extractLsb' 16 1 = 0#1 ∧
      (0x38020000 : Word).extractLsb' 18 4 = 0#4 ∧ (0x38040000 : Word).extractLsb' 18 4 ≠ 0#4 := by decide
theorem witness_RetiResult :
    ({ State.reset with inIsr := true, sp := 2 } : State).inIsr = true ∧ State.reset.inIsr = false ∧
      ({ State.reset with inIsr := true, sp := 1 } : State).sp.val < 2 := by decide
/-- The subroutine of the statement changed a register, and left another word above the stack's depth. -/
theorem witness_CallThenRet :
    ({ State.reset with sp := 12 } : State).sp.val ≤ 14 ∧ ({ State.reset with sp := 14 } : State).sp.val ≤ 14 ∧
      ∃ t, exec (.call (.absolute 4)) { State.reset with sp := 12 } = .next t ∧
        (∀ k, k < t.sp.val → (disturbed t).hs[k]? = t.hs[k]?) ∧ (disturbed t).hs[15]? = some 99 ∧ (disturbed t).sp = t.sp :=
  ⟨by decide, by decide, _, rfl, fun _ h => disturbed_hs _ (Nat.lt_trans h (by decide)), by simp [disturbed], rfl⟩
theorem witness_ArithmeticFlagsAreExact : (3 : Reg) ≠ 0 := by decide
theorem witness_InstructionsStopOnlyOnTheStack :
    exec (.push (.reg 5)) { State.reset with sp := 16 } = .fault .stackOverflow ∧
    exec (.call (.absolute 0)) { State.reset with sp := 15 } = .fault .stackOverflow ∧
    exec (.pop 6) State.reset = .fault .stackUnderflow ∧ exec .ret { State.reset with sp := 1 } = .fault .stackUnderflow ∧
    exec .reti { State.reset with sp := 1, inIsr := true } = .fault .stackUnderflow ∧ exec .reti State.reset = .fault .retiOutsideIsr :=
  ⟨rfl, rfl, rfl, rfl, rfl, rfl⟩

/-- An instruction of each kind that completes: the premise of the frame statements. -/
theorem witness_RegisterFrame :
    (∃ t, exec (.add 3 1 (.reg 2)) State.reset = .next t) ∧ destOf (.add 3 1 (.reg 2)) ≠ some 4 ∧
      ∃ t, exec .reti { State.reset with inIsr := true, sp := 2 } = .next t :=
  ⟨⟨_, rfl⟩, by decide, _, by rw [exec, execReti, returnFromInterrupt_ok _ rfl (by decide), finish_ok]⟩
theorem witness_StatusFrame :
    (∃ t, exec (.xor 3 1 (.reg 2)) State.reset = .next t) ∧ destOf (.xor 3 1 (.reg 2)) ≠ some 0 ∧
      (sideBits (.xor 3 1 (.reg 2))).getLsbD 6 = false := ⟨⟨_, rfl⟩, by decide, by decide⟩
/-- For a store: an address beside the stored one, and a port. -/
theorem witness_DataMemoryFrame :
    (∃ t, exec (.st 1 (.absolute 0x0100)) State.reset = .next t) ∧
      (∀ ri m, Instr.st 1 (.absolute 0x0100) = .st ri m →
        0x0101 ≠ (effAddr m State.reset).toNat ∨ IsPort (effAddr m State.reset).toNat) ∧
      (∀ ri m, Instr.st 1 (.absolute 0x3FFB) = .st ri m →
        0x3FFB ≠ (effAddr m State.reset).toNat ∨ IsPort (effAddr m State.reset).toNat) := by
  refine ⟨⟨_, rfl⟩, ?_, ?_⟩ <;> intro ri m h <;> cases h <;> decide
theorem witness_StackFrame :
    (∃ t, exec (.push (.reg 5)) { State.reset with sp := 15 } = .next t ∧ 14 < t.sp.val) ∧
      ∃ t, exec (.cpy 1 (.const 5)) State.reset = .next t := ⟨⟨_, rfl, by decide⟩, _, rfl⟩
theorem witness_InterruptStateFrame : ∃ t, exec (.call (.absolute 4)) State.reset = .next t := ⟨_, rfl⟩
theorem witness_PortFrame :
    (∃ t, exec (.ld 2 (.absolute 0x3FFE)) State.reset = .next t) ∧ (∃ t, exec (.st 2 (.absolute 0xFFFF)) State.reset = .next t) ∧
      (∃ t, exec (.ld 2 (.absolute 0x4000)) State.reset = .next t) ∧
      IsPort (effAddr (.absolute 0x3FFE) State.reset).toNat ∧ IsPort (effAddr (.absolute 0xFFFF) State.reset).toNat ∧
      ¬IsPort (effAddr (.absolute 0x4000) State.reset).toNat :=
  ⟨⟨_, rfl⟩, ⟨_, rfl⟩, ⟨_, rfl⟩, by decide, by decide, by decide⟩

/-- R199's functions as the model instantiates them meet what the statements about them ask. -/
theorem witness_Recommended : Recommended recommendedFp := recommendedFp_recommended
theorem witness_RecommendedDivisionByZero :
    binary32 0xBF800000 = .num true (2 ^ 23) 126 ∧ binary32 0x80000000 = .num true 0 0 ∧ binary32 0 = .num false 0 0 := by decide
theorem witness_RecommendedSumsCommute : ¬isNaN32 0x3F800000 ∧ ¬isNaN32 0xFF800000 := by
  constructor <;> (unfold isNaN32; decide)
theorem witness_RecommendedTruncation :
    binary32 0xC0300000 = .num true (11 * 2 ^ 20) 127 ∧ 11 * 2 ^ 20 * 2 ^ 127 / 2 ^ 149 < 2 ^ 31 := by
  constructor <;> decide
/-- -2^31, the one number of that magnitude whose integer part fits. -/
theorem witness_RecommendedTruncation_least :
    binary32 0xCF000000 = .num true (2 ^ 23) 157 ∧ 2 ^ 23 * 2 ^ 157 / 2 ^ 149 = 2 ^ 31 ∧
      toIntIeee 0xCF000000 = some 0x80000000 := by
  refine ⟨?_, ?_, ?_⟩ <;> decide

end Sys2Proof.Tests
end

section
namespace Sys2Proof.Machine

/-! ## The core and its surroundings (R36)

Both memories, the ports and the environment's inputs stand around the core: registers, pc, stack, shadow file and `in_isr`. -/

/-- The fields of the state that stand around the core. -/
structure Surroundings where
  dm : Memory
  pm : Memory
  irqIn : List (BitVec 8)
  portIn : List Word
  events : List IoEvent
  draws : Nat

/-- The state with its surroundings changed by `g`, and the core's own fields kept. -/
def State.around (g : Surroundings → Surroundings) (s : State) : State :=
  { s with
    dm := (g ⟨s.dm, s.pm, s.irqIn, s.portIn, s.events, s.draws⟩).dm
    pm := (g ⟨s.dm, s.pm, s.irqIn, s.portIn, s.events, s.draws⟩).pm
    irqIn := (g ⟨s.dm, s.pm, s.irqIn, s.portIn, s.events, s.draws⟩).irqIn
    portIn := (g ⟨s.dm, s.pm, s.irqIn, s.portIn, s.events, s.draws⟩).portIn
    events := (g ⟨s.dm, s.pm, s.irqIn, s.portIn, s.events, s.draws⟩).events
    draws := (g ⟨s.dm, s.pm, s.irqIn, s.portIn, s.events, s.draws⟩).draws }

/-- A push answers the same whatever surrounds the core. -/
theorem push_around (g : Surroundings → Surroundings) (v : Word) (s : State) :
    push v (s.around g) = (push v s).map (·.around g) := by
  by_cases h : s.sp.val < 16
  · rw [push_ok v s h, push_ok v (s.around g) h]; rfl
  · rw [push_full v s h, push_full v (s.around g) h]; rfl

/-- A pop answers the same whatever surrounds the core. -/
theorem pop_around (g : Surroundings → Surroundings) (s : State) :
    pop (s.around g) = (pop s).map (fun p => (p.1, p.2.around g)) := by
  by_cases h : 0 < s.sp.val
  · rw [pop_ok s h, pop_ok (s.around g) h]; rfl
  · rw [pop_empty s h, pop_empty (s.around g) h]; rfl

/-- The two pushes of CALL and of interrupt entry answer the same whatever surrounds the core. -/
theorem pushReturn_around (g : Surroundings → Surroundings) (ret : Addr) (s : State) :
    pushReturn ret (s.around g) = (pushReturn ret s).map (·.around g) := by
  by_cases h : s.sp.val + 2 ≤ 16
  · rw [pushReturn_ok ret s h, pushReturn_ok ret (s.around g) h]; rfl
  · rw [pushReturn_full ret s (by omega), pushReturn_full ret (s.around g) (not_le.1 h)]; rfl

/-- The two pops of RET and RETI answer the same whatever surrounds the core. -/
theorem popReturn_around (g : Surroundings → Surroundings) (s : State) :
    popReturn (s.around g) = (popReturn s).map (fun p => (p.1, p.2.around g)) := by
  by_cases h : 2 ≤ s.sp.val
  · rw [popReturn_ok s h, popReturn_ok (s.around g) h]; rfl
  · rw [popReturn_short s (not_le.1 h), popReturn_short (s.around g) (not_le.1 h)]; rfl

/-- The return from a service routine sees nothing around the core. -/
theorem returnFromInterrupt_around (g : Surroundings → Surroundings) (s : State) :
    returnFromInterrupt (s.around g) = (returnFromInterrupt s).map (·.around g) := by
  cases hi : s.inIsr with
  | false => rw [returnFromInterrupt_outside s hi, returnFromInterrupt_outside (s.around g) hi]; rfl
  | true =>
    by_cases h : 2 ≤ s.sp.val
    · rw [returnFromInterrupt_ok s hi h, returnFromInterrupt_ok (s.around g) hi h]; rfl
    · rw [returnFromInterrupt_short s hi (not_le.1 h), returnFromInterrupt_short (s.around g) hi (not_le.1 h)]; rfl

/-- Interrupt entry looks at nothing around the core but the vector entry (R216, R217). -/
theorem enterInterrupt_around (g : Surroundings → Surroundings) (n : Fin 8) (s : State)
    (hv : Memory.read (s.around g).pm (vectorAddr n).toNat = Memory.read s.pm (vectorAddr n).toNat) :
    enterInterrupt n (s.around g) = (enterInterrupt n s).map (·.around g) := by
  by_cases h : s.sp.val + 2 ≤ 16
  · cases hr : Memory.read s.pm (vectorAddr n).toNat with
    | none => rw [enterInterrupt_noVector n s h hr, enterInterrupt_noVector n (s.around g) h (hv.trans hr)]; rfl
    | some w => rw [enterInterrupt_ok n s h hr, enterInterrupt_ok n (s.around g) h (hv.trans hr)]; rfl
  · rw [enterInterrupt_full n s (not_le.1 h), enterInterrupt_full n (s.around g) (not_le.1 h)]; rfl

/-- A change of a computation's state shows in its outcome. -/
theorem finish_map (f : State → State) (e : Except Fault State) : finish (e.map f) = mapNext f (finish e) := by
  cases e <;> rfl

/-- No instruction but LD and ST sees what surrounds the core, or changes it (R36). -/
theorem exec_around (g : Surroundings → Surroundings) (i : Instr) (s : State) (hld : ∀ ri m, i ≠ .ld ri m)
    (hst : ∀ ri m, i ≠ .st ri m) : exec i (s.around g) = mapNext (·.around g) (exec i s) := by
  cases hi : touchesMemoryOrStack i with
  | false =>
    exact exec_unseen (f := (·.around g)) (fun _ _ _ => rfl) (fun _ _ => rfl) (fun _ => rfl) (fun _ _ => rfl) i s hi
  | true =>
    cases i with
    | ld ri m => exact absurd rfl (hld ri m)
    | st ri m => exact absurd rfl (hst ri m)
    | push src =>
      have value : sourceValue src (s.around g) = sourceValue src s :=
        sourceValue_unseen (f := (·.around g)) (fun _ _ => rfl) src s
      simp only [exec, execPush_eq, value, push_around]
      cases push (sourceValue src s) s <;> rfl
    | pop ri =>
      simp only [exec, execPop_eq, pop_around]
      cases pop s <;> rfl
    | call m =>
      have target : effAddr m (s.around g) = effAddr m s :=
        effAddr_unseen (f := (·.around g)) (fun _ _ => rfl) (fun _ => rfl) m s
      have next : (s.around g).npc = s.npc := rfl
      simp only [exec, execCall_eq, target, next, pushReturn_around]
      cases pushReturn s.npc s <;> rfl
    | ret =>
      simp only [exec, execRet, popReturn_around]
      cases popReturn s <;> rfl
    | reti => simp only [exec, execReti, returnFromInterrupt_around, finish_map]
    | _ => cases hi

/-! ## What data accesses do not reach (R36) -/

/-- The fields of the state that are in neither data space nor the registers and pc. -/
structure OutOfReach where
  pm : Memory
  hs : Vector Word 16
  sp : Fin 17
  sh : Vector Word 24

/-- The state with what data accesses do not reach changed by `g`, and every other field kept. -/
def State.apart (g : OutOfReach → OutOfReach) (s : State) : State :=
  { s with
    pm := (g ⟨s.pm, s.hs, s.sp, s.sh⟩).pm
    hs := (g ⟨s.pm, s.hs, s.sp, s.sh⟩).hs
    sp := (g ⟨s.pm, s.hs, s.sp, s.sh⟩).sp
    sh := (g ⟨s.pm, s.hs, s.sp, s.sh⟩).sh }

/-- A read of data space sees neither PM, the stack nor the shadow file. -/
theorem memRead_apart (g : OutOfReach → OutOfReach) (a : Addr) (s : State) :
    memRead a (s.apart g) = ((memRead a s).1, (memRead a s).2.apart g) := by
  cases hio : isIo a with
  | false => rw [memRead_dm hio, memRead_dm hio]; rfl
  | true => cases hp : s.portIn <;> simp [memRead, ioRead, hio, hp, State.apart]

/-- A write of data space sees neither PM, the stack nor the shadow file. -/
theorem memWrite_apart (g : OutOfReach → OutOfReach) (a : Addr) (v : Word) (s : State) :
    memWrite a v (s.apart g) = (memWrite a v s).apart g := by
  cases hio : isIo a with
  | false => rw [memWrite_dm v hio, memWrite_dm v hio]; rfl
  | true => rw [memWrite_port v hio, memWrite_port v hio]; rfl

/-- LD and ST neither see nor change PM, the stack and the shadow file (R36). -/
theorem exec_apart (g : OutOfReach → OutOfReach) {i : Instr} (s : State) (hi : ∃ ri m, i = .ld ri m ∨ i = .st ri m) :
    exec i (s.apart g) = mapNext (·.apart g) (exec i s) := by
  have address : ∀ m, effAddr m (s.apart g) = effAddr m s :=
    fun m => effAddr_unseen (f := (·.apart g)) (fun _ _ => rfl) (fun _ => rfl) m s
  obtain ⟨ri, m, rfl | rfl⟩ := hi
  · simp only [exec, execLd_eq, address, memRead_apart]; rfl
  · have value : (s.apart g).reg ri = s.reg ri := rfl
    simp only [exec, execSt_eq, address, value, memWrite_apart]; rfl

/-! ## Steps and runs -/

/-- A step does not see a change around the core that the sampling of the request lines, the fetch, the vector fetch and the
fetched instruction do not see. -/
theorem step_around (g : Surroundings → Surroundings) (s : State) (htaken : (s.around g).taken = s.taken)
    (hsampled : (s.around g).sampled = s.sampled.around g) (hfetch : fetchDecode (s.around g) = fetchDecode s)
    (hvector : ∀ n, Memory.read (s.sampled.around g).pm (vectorAddr n).toNat = Memory.read s.sampled.pm (vectorAddr n).toNat)
    (hexec : s.taken = none → ∀ i, fetchDecode s = .ok i →
      exec i (s.sampled.around g) = mapNext (·.around g) (exec i s.sampled)) :
    step (s.around g) = mapNext (·.around g) (step s) := by
  cases ht : s.taken with
  | some n =>
    rw [step_taken ht, step_taken (htaken.trans ht), hsampled, enterInterrupt_around g n _ (hvector n), finish_map]
  | none =>
    cases hf : fetchDecode s with
    | ok i => rw [step_exec ht hf, step_exec (htaken.trans ht) (hfetch.trans hf), hsampled, hexec ht i hf]
    | error e => rw [step_noInstruction ht hf, step_noInstruction (htaken.trans ht) (hfetch.trans hf)]; rfl

/-- A step that runs no LD or ST does not see DM and the ports, and leaves them alone (R36). -/
theorem step_data (s : State) (dm' : Memory) (portIn' : List Word) (events' : List IoEvent)
    (h : s.taken = none → ∀ i, fetchDecode s = .ok i → (∀ ri m, i ≠ .ld ri m) ∧ ∀ ri m, i ≠ .st ri m) :
    step { s with dm := dm', portIn := portIn', events := events' } =
      mapNext (fun t => { t with dm := dm', portIn := portIn', events := events' }) (step s) :=
  step_around (fun o => { o with dm := dm', portIn := portIn', events := events' }) s rfl
    (by rw [sampled_eq, sampled_eq]; rfl) rfl (fun _ => rfl)
    (fun ht i hf => exec_around _ i _ (h ht i hf).1 (h ht i hf).2)

/-- The instruction that a step runs does not depend on DM (R36). -/
theorem step_dm {s : State} {i : Instr} (dm' : Memory) (ht : s.taken = none) (hf : fetchDecode s = .ok i) :
    step { s with dm := dm' } = exec i { s.sampled with dm := dm' } := by
  have taken : ({ s with dm := dm' } : State).taken = none := ht
  have fetch : fetchDecode { s with dm := dm' } = .ok i := hf
  rw [step_exec taken fetch, sampled_eq, sampled_eq]

/-- No instruction reads or writes PM (R36, R59). -/
theorem exec_pm (i : Instr) (s : State) (pm' : Memory) :
    exec i { s with pm := pm' } = mapNext (fun t => { t with pm := pm' }) (exec i s) := by
  by_cases hi : ∃ ri m, i = .ld ri m ∨ i = .st ri m
  · exact exec_apart (fun o => { o with pm := pm' }) s hi
  · exact exec_around (fun o => { o with pm := pm' }) i s (fun ri m e => hi ⟨ri, m, .inl e⟩) (fun ri m e => hi ⟨ri, m, .inr e⟩)

/-- A fetch looks at nothing of PM but the word at pc (R59). -/
theorem fetchDecode_pm {s : State} {pm' : Memory} (h : Memory.read pm' s.pc.toNat = Memory.read s.pm s.pc.toNat) :
    fetchDecode { s with pm := pm' } = fetchDecode s := by
  simp only [fetchDecode, pmRead, h]

/-- A step looks at nothing of PM but the word at pc and the vector table, and leaves PM alone (R36, R59). -/
theorem step_pm (s : State) (pm' : Memory)
    (h : ∀ a, a = s.pc.toNat ∨ (0xFFF0 ≤ a ∧ a ≤ 0xFFFE) → Memory.read pm' a = Memory.read s.pm a) :
    step { s with pm := pm' } = mapNext (fun t => { t with pm := pm' }) (step s) := by
  have vector : ∀ n, Memory.read pm' (vectorAddr n).toNat = Memory.read s.sampled.pm (vectorAddr n).toNat := by
    intro n
    have hn := vectorAddr_toNat n
    rw [State.sampled_pm]
    exact h _ (.inr (by omega))
  exact step_around (fun o => { o with pm := pm' }) s rfl (by rw [sampled_eq, sampled_eq]; rfl)
    (fetchDecode_pm (h _ (.inl rfl))) vector (fun _ i _ => exec_pm i _ pm')

/-- A step leaves PM as it is: a change of PM to itself shows in the next state. -/
theorem step_keeps_pm {s t : State} (h : step s = .next t) : t.pm = s.pm := by
  have hs : step s = mapNext (fun u => { u with pm := s.pm }) (step s) := step_pm s s.pm (fun _ _ => rfl)
  rw [h] at hs
  rw [show t = { t with pm := s.pm } from Host.Outcome.next.inj hs]

/-- PM is constant in every run (R36). -/
theorem run_keeps_pm {n : Nat} {s t : State} (h : Host.Core.run Sys2Proof.core n s = .next t) : t.pm = s.pm := by
  induction n generalizing s with
  | zero =>
    rw [run_zero] at h
    exact (congrArg State.pm (Host.Outcome.next.inj h)).symm
  | succ n ih =>
    obtain ⟨u, hu, hr⟩ := run_succ h
    exact (ih hr).trans (step_keeps_pm hu)

/-- What ST writes to a word of DM, LD reads back whole (R53, R56, R57). -/
theorem ld_after_st (ri rk : Reg) (m : AddrMode) (s : State) (h : isIo (effAddr m s) = false) :
    ∃ t u, exec (.st ri m) s = .next t ∧ exec (.ld rk (.absolute (effAddr m s))) t = .next u ∧ u.reg rk = s.reg ri := by
  refine ⟨_, _, execSt_eq ri m s, execLd_eq rk _ _, ?_⟩
  have address : ∀ t, effAddr (.absolute (effAddr m s)) t = effAddr m s := fun _ => rfl
  rw [address, memWrite_dm _ h, memRead_dm h]
  simp [State.dmWord]

/-- Settles O5: a change of the core's surroundings passes through every step that is no data access, and a change of PM, the
stack and the shadow file passes through every data access. -/
theorem programMemoryConstant : Obligations.ProgramMemoryConstant :=
  ⟨ld_after_st,
    fun i s dm' portIn' events' draws' hld hst =>
      exec_around (fun o => { o with dm := dm', portIn := portIn', events := events', draws := draws' }) i s hld hst,
    step_data, fun _ _ dm' ht hf => step_dm dm' ht hf, exec_pm, step_pm,
    fun _ s hs' sp' sh' hi => exec_apart (fun o => { o with hs := hs', sp := sp', sh := sh' }) s hi,
    fun _ _ _ h => run_keeps_pm h⟩

end Sys2Proof.Machine
end

section
namespace Sys2Proof.Machine

/-! ## What an instruction leaves of the registers (R22, R63, R99) -/

/-- A read of data space leaves every register. -/
@[simp] theorem memRead_reg (a : Addr) (s : State) (q : Reg) : (memRead a s).2.reg q = s.reg q := by
  obtain ⟨-, h⟩ | ⟨-, v, rest, -, h⟩ | ⟨-, -, h⟩ := memRead_cases a s <;> rw [h] <;> rfl

/-- A write of data space leaves every register. -/
@[simp] theorem memWrite_reg (a : Addr) (v : Word) (s : State) (q : Reg) : (memWrite a v s).reg q = s.reg q := by
  obtain ⟨-, h⟩ | ⟨-, h⟩ := memWrite_cases a v s <;> rw [h] <;> rfl

/-- A write-back changes no register but its destination and SR. -/
theorem writeBack_advance_reg (s : State) (cls : FlagClass) {ri q : Reg} (r : Word) (f : FlagValues) (hri : ri ≠ q)
    (hq : q ≠ 0) : (s.writeBack cls ri r f).advance.reg q = s.reg q := by
  obtain ⟨-, -, others, -⟩ := writeBack_writesBack s cls ri r f
  exact others q hri.symm hq

/-- An instruction that completes keeps each of R1 … R31 that it does not name as its destination; RETI, which names none and
restores R0 … R23, apart. -/
theorem exec_keeps_reg {i : Instr} {s t : State} {q : Reg} (h : exec i s = .next t) (hi : i ≠ .reti) (hq : q ≠ 0)
    (hd : destOf i ≠ some q) : t.reg q = s.reg q := by
  have of_next : ∀ {u}, exec i s = .next u → u.reg q = s.reg q → t.reg q = s.reg q := by
    intro u hu hr
    rwa [Host.Outcome.next.inj (h.symm.trans hu)]
  have ne_of_dest : ∀ {ri : Reg}, destOf i = some ri → ri ≠ q := by
    rintro ri hri rfl
    exact hd hri
  cases i with
  | ld ri m =>
    refine of_next (execLd_eq ri m s) ?_
    rw [State.advance_eq, State.reg_jump, State.reg_setReg_ne _ _ (ne_of_dest rfl), memRead_reg]
  | st ri m => exact of_next (execSt_eq ri m s) (memWrite_reg _ _ s q)
  | cpy ri src => exact of_next (execCpy_eq ri src s) (State.reg_setReg_ne s _ (ne_of_dest rfl))
  | push src =>
    obtain ⟨_, rfl⟩ := execPush_cases h
    rfl
  | pop ri =>
    obtain ⟨_, rfl⟩ := execPop_cases h
    exact State.reg_setReg_ne s _ (ne_of_dest rfl)
  | jmp m | jc m | jn m | jv m | jz m | jnc m | jnn m | jnv m | jnz m | jge m | jl m =>
    exact of_next (jumpIf_eq _ m s Iff.rfl) rfl
  | call m =>
    obtain ⟨_, rfl⟩ := execCall_cases h
    rfl
  | ret =>
    obtain ⟨_, rfl⟩ := execRet_cases h
    exact State.reg_setReg_ne s _ hq.symm
  | reti => exact absurd rfl hi
  | add ri rj b => exact of_next (execAdd_eq ri rj b s) (writeBack_advance_reg s _ _ _ (ne_of_dest rfl) hq)
  | sub ri rj b => exact of_next (execSub_eq ri rj b s) (writeBack_advance_reg s _ _ _ (ne_of_dest rfl) hq)
  | cmp rj b => exact of_next (execCmp_eq rj b s) (writeFlags_reg s _ _ hq)
  | not ri rj | and ri rj b | bic ri rj b | or ri rj b | xor ri rj b =>
    exact of_next (logical_eq ri _ s) (writeBack_advance_reg s _ _ _ (ne_of_dest rfl) hq)
  | srl ri rj n | sll ri rj n | sra ri rj n | rtr ri rj n | rtl ri rj n | rrc ri rj n | rlc ri rj n =>
    exact of_next (shiftBy_eq _ _ ri rj n s) (writeBack_advance_reg s _ _ _ (ne_of_dest rfl) hq)
  | fa ri rj b | fs ri rj b | fm ri rj b | fd ri rj b | fti ri rj | itf ri rj =>
    exact of_next (fpuResult_eq ri _ s) (State.reg_setReg_ne s _ (ne_of_dest rfl))

/-- A RETI that completes keeps R24 … R31, which have no shadow (R22, R146). -/
theorem exec_reti_keeps_high {s t : State} {q : Reg} (h : exec .reti s = .next t) (hq : 24 ≤ q.val) :
    t.reg q = s.reg q := by
  obtain ⟨_, _, rfl⟩ := execReti_cases h
  exact (State.restoreShadow_reg s q).trans (dif_neg (by omega))

/-- Settles O54: the frame of each instruction's own law, with RETI's restore as the one exception. -/
theorem registerFrame : Obligations.RegisterFrame := by
  intro i s t h
  refine ⟨fun hi q hq hd => exec_keeps_reg h hi hq hd, ?_⟩
  rintro rfl q hq
  exact exec_reti_keeps_high h hq

end Sys2Proof.Machine
end

section
namespace Sys2Proof.Machine

/-! ## What an instruction that completes has done

One case per shape: the seven instructions that reach data space or the stack, and all others together. -/

/-- `t` is what the instruction makes of `s`. -/
inductive Effect (s t : State) : Instr → Prop
  | plain {i : Instr} (hi : touchesMemoryOrStack i = false) (ht : t = { s with x := t.x, pc := t.pc }) : Effect s t i
  | ld {ri : Reg} {m : AddrMode}
      (ht : t = ((memRead (effAddr m s) s).2.setReg ri (memRead (effAddr m s) s).1).advance) : Effect s t (.ld ri m)
  | st {ri : Reg} {m : AddrMode} (ht : t = (memWrite (effAddr m s) (s.reg ri) s).advance) : Effect s t (.st ri m)
  | push {src : Source} (h16 : s.sp.val < 16)
      (ht : t = { s with
        hs := s.hs.set s.sp.val (sourceValue src s), sp := ⟨s.sp.val + 1, by omega⟩, pc := s.pc + 1 }) :
      Effect s t (.push src)
  | pop {ri : Reg} (h0 : 0 < s.sp.val)
      (ht : t = { s with
        x := s.x.set ri.val (s.hs[s.sp.val - 1]), sp := ⟨s.sp.val - 1, by omega⟩, pc := s.pc + 1 }) :
      Effect s t (.pop ri)
  | call {m : AddrMode} (h14 : s.sp.val + 2 ≤ 16)
      (ht : t = { s with
        hs := (s.hs.set s.sp.val ((s.pc + 1).setWidth 32) (by omega)).set (s.sp.val + 1) (s.reg 0) (by omega)
        sp := ⟨s.sp.val + 2, by omega⟩
        pc := effAddr m s }) : Effect s t (.call m)
  | ret (h2 : 2 ≤ s.sp.val)
      (ht : t = { s with
        x := s.x.set 0 (s.hs[s.sp.val - 1])
        sp := ⟨s.sp.val - 2, by omega⟩
        pc := (s.hs[s.sp.val - 2]).setWidth 16 }) : Effect s t .ret
  | reti (hi : s.inIsr = true) (h2 : 2 ≤ s.sp.val)
      (ht : t = { s with
        x := s.restoreShadow.x
        sp := ⟨s.sp.val - 2, by omega⟩
        inIsr := false
        pc := (s.hs[s.sp.val - 2]).setWidth 16 }) : Effect s t .reti

/-- Every completion of an instruction is one of these. -/
theorem exec_effect {i : Instr} {s t : State} (h : exec i s = .next t) : Effect s t i := by
  cases hi : touchesMemoryOrStack i with
  | false =>
    obtain ⟨u, hu, frame⟩ := exec_plain i s hi
    obtain rfl := Host.Outcome.next.inj (hu.symm.trans h)
    exact .plain hi frame
  | true =>
    cases i with
    | ld ri m => exact .ld (Host.Outcome.next.inj (h.symm.trans (execLd_eq ri m s)))
    | st ri m => exact .st (Host.Outcome.next.inj (h.symm.trans (execSt_eq ri m s)))
    | push src => exact (execPush_cases h).elim .push
    | pop ri => exact (execPop_cases h).elim .pop
    | call m => exact (execCall_cases h).elim .call
    | ret => exact (execRet_cases h).elim .ret
    | reti => exact (execReti_cases h).elim fun hr h2 => h2.elim (.reti hr)
    | _ => cases hi

/-- A read of data space changes nothing but the ports' fields. -/
theorem memRead_frame (a : Addr) (s : State) :
    (memRead a s).2 = { s with
      portIn := (memRead a s).2.portIn, events := (memRead a s).2.events, draws := (memRead a s).2.draws } := by
  obtain ⟨-, e⟩ | ⟨-, v, rest, -, e⟩ | ⟨-, -, e⟩ := memRead_cases a s <;> rw [e]

/-- A write of data space changes nothing but DM and the record of the accesses. -/
theorem memWrite_frame (a : Addr) (v : Word) (s : State) :
    memWrite a v s = { s with dm := (memWrite a v s).dm, events := (memWrite a v s).events } := by
  obtain ⟨-, e⟩ | ⟨-, e⟩ := memWrite_cases a v s <;> rw [e]

/-- What LD leaves of the state (R110). -/
theorem ld_frame (ri : Reg) (m : AddrMode) (s : State) :
    ((memRead (effAddr m s) s).2.setReg ri (memRead (effAddr m s) s).1).advance =
      { s with
        x := s.x.set ri.val (memRead (effAddr m s) s).1, pc := s.pc + 1, portIn := (memRead (effAddr m s) s).2.portIn
        events := (memRead (effAddr m s) s).2.events, draws := (memRead (effAddr m s) s).2.draws } := by
  rw [memRead_frame]
  rfl

/-- What ST leaves of the state (R111). -/
theorem st_frame (a : Addr) (v : Word) (s : State) :
    (memWrite a v s).advance =
      { s with dm := (memWrite a v s).dm, events := (memWrite a v s).events, pc := s.pc + 1 } := by
  rw [memWrite_frame]
  rfl

end Sys2Proof.Machine
end

section
namespace Sys2Proof.Machine

/-! ## The invariant (R55, R57) -/

/-- A read of data space leaves DM. -/
theorem memRead_dm_eq (a : Addr) (s : State) : (memRead a s).2.dm = s.dm := (congrArg State.dm (memRead_frame a s) :)

/-- An instruction that completes leaves DM, or writes one word of it that is no port. -/
theorem exec_dm {i : Instr} {s t : State} (h : exec i s = .next t) :
    t.dm = s.dm ∨ ∃ (a : Addr) (v : Word), ¬IsPort a.toNat ∧ t.dm = Memory.write s.dm a.toNat v := by
  cases exec_effect h with
  | plain _ ht => exact .inl (congrArg State.dm ht :)
  | ld ht => exact .inl ((congrArg State.dm ht).trans (memRead_dm_eq _ s))
  | @st ri m ht =>
    obtain ⟨-, e⟩ | ⟨hio, e⟩ := memWrite_cases (effAddr m s) (s.reg ri) s
    · exact .inl ((congrArg State.dm ht).trans (congrArg State.dm e :))
    · exact .inr ⟨_, _, (isIo_false_iff _).1 hio, (congrArg State.dm ht).trans (congrArg State.dm e :)⟩
  | push _ ht | pop _ ht | call _ ht | ret _ ht | reti _ _ ht => exact .inl (congrArg State.dm ht :)

/-- A step leaves DM, or writes one word of it that is no port. -/
theorem step_dm_cases {s t : State} (h : step s = .next t) :
    t.dm = s.dm ∨ ∃ (a : Addr) (v : Word), ¬IsPort a.toNat ∧ t.dm = Memory.write s.dm a.toNat v := by
  rw [← State.sampled_dm s]
  obtain ⟨n, _, he⟩ | ⟨_, i, _, he⟩ := step_cases h
  · obtain ⟨w, _, _, ht⟩ := enterInterrupt_cases he
    exact .inl (congrArg State.dm ht :)
  · exact exec_dm he

/-- A write of one DM word that is no port keeps the invariant. -/
theorem stateInv_write {s t : State} {a : Addr} {v : Word} (h : StateInv s) (ha : ¬IsPort a.toNat) (hpm : t.pm = s.pm)
    (hdm : t.dm = Memory.write s.dm a.toNat v) : StateInv t := by
  obtain ⟨dmWf, pmWf, noPort⟩ := h
  refine ⟨hdm ▸ Memory.write_wf a v dmWf, hpm ▸ pmWf, fun p hp => ?_⟩
  rcases Memory.mem_write (hdm ▸ hp) with rfl | hp
  · exact ha
  · exact noPort p hp

/-- The invariant speaks of the two memories alone. -/
theorem stateInv_congr {s t : State} (h : StateInv s) (hdm : t.dm = s.dm) (hpm : t.pm = s.pm) : StateInv t := by
  unfold StateInv
  rw [hdm, hpm]
  exact h

/-- The invariant passes through every step. -/
theorem step_keeps_stateInv {s t : State} (h : StateInv s) (hstep : step s = .next t) : StateInv t := by
  obtain hdm | ⟨a, v, ha, hdm⟩ := step_dm_cases hstep
  · exact stateInv_congr h hdm (step_keeps_pm hstep)
  · exact stateInv_write h ha (step_keeps_pm hstep) hdm

/-- Settles O3: a step leaves PM, and leaves DM or writes one word of it that is no port. -/
theorem stepKeepsInvariant : Obligations.StepKeepsInvariant := fun _ _ => step_keeps_stateInv

/-- What holds of a state and passes through every step holds after every run. -/
theorem run_induction {P : State → Prop} (hstep : ∀ s t, P s → step s = .next t → P t) {n : Nat} {s t : State} (h : P s)
    (hr : Host.Core.run Sys2Proof.core n s = .next t) : P t := by
  induction n generalizing s with
  | zero =>
    rw [run_zero] at hr
    exact Host.Outcome.next.inj hr ▸ h
  | succ n ih =>
    obtain ⟨u, hu, hr⟩ := run_succ hr
    exact ih (hstep s u h hu) hr

/-- The reset state meets the invariant: both memories are empty. -/
theorem stateInv_reset : StateInv State.reset := ⟨Memory.wf_nil, Memory.wf_nil, fun _ h => absurd h List.not_mem_nil⟩

/-- A load of PM keeps the invariant. -/
theorem loadPm_stateInv {s : State} (image : List (Addr × Word)) (h : StateInv s) : StateInv (s.loadPm image) := by
  obtain ⟨dmWf, pmWf, noPort⟩ := h
  exact ⟨dmWf, loadPm_wf s image pmWf, noPort⟩

/-- A load of DM keeps the invariant: nothing is loaded at a port. -/
theorem loadDm_stateInv {s : State} (image : List (Addr × Word)) (h : StateInv s) : StateInv (s.loadDm image) := by
  obtain ⟨dmWf, pmWf, noPort⟩ := h
  exact ⟨loadDm_wf s image dmWf, pmWf,
    loadDm_noPort s image (P := fun a => ¬IsPort a) (fun a ha => (isIo_false_iff a).1 ha) noPort⟩

/-- Settles O4: the loads and then every step keep the invariant of the reset state. -/
theorem loadedRunKeepsInvariant : Obligations.LoadedRunKeepsInvariant := fun pmImage dmImage _ _ hr =>
  run_induction (P := StateInv) (fun _ _ => step_keeps_stateInv)
    (loadDm_stateInv dmImage (loadPm_stateInv pmImage stateInv_reset)) hr

/-- Settles O1: the fields of the reset state. -/
theorem resetState : Obligations.ResetState := by
  unfold Obligations.ResetState
  decide

/-- Settles O2: both memories are empty at reset. -/
theorem resetMeetsInvariant : Obligations.ResetMeetsInvariant := stateInv_reset

end Sys2Proof.Machine
end

section
namespace Sys2Proof

/-! ## What the decoder reads of an encoded word (R82 – R92) -/

/-- The addressing mode of format M is read back (R60). -/
@[simp] theorem modeM_encodeM (g : OpGroup) (ri : Reg) {m : AddrMode} (h : m.wf = true) : modeM (encodeM g ri m) = m := by
  cases m <;> simp_all [modeM, encodeM, addrModeOf, AddrMode.wf, AddrMode.regField, AddrMode.ctlBit, AddrMode.addrField]

/-- The addressing mode of format J is read back (R60). -/
@[simp] theorem modeJ_encodeJ (g : OpGroup) (cc : BitVec 4) {m : AddrMode} (h : m.wf = true) : modeJ (encodeJ g cc m) = m := by
  cases m <;> simp_all [modeJ, encodeJ, addrModeOf, AddrMode.wf, AddrMode.regField, AddrMode.ctlBit, AddrMode.addrField]

@[simp] theorem riField_encodeM (g : OpGroup) (ri : Reg) (m : AddrMode) : riField (encodeM g ri m) = ri :=
  riField_formatM g ri _ _ _

@[simp] theorem ccField_encodeJ (g : OpGroup) (cc : BitVec 4) (m : AddrMode) : ccField (encodeJ g cc m) = cc :=
  ccField_formatJ g _ cc _ _

@[simp] theorem riField_encodeT (g : OpGroup) (ri : Reg) (src : Source) : riField (encodeT g ri src) = ri := by
  cases src <;> exact riField_formatM g ri _ _ _

/-- The operand of format T is read back (R83). -/
@[simp] theorem sourceT_encodeT (g : OpGroup) (ri : Reg) (src : Source) : sourceT (encodeT g ri src) = src := by
  cases src <;> simp [sourceT, encodeT]

@[simp] theorem decode_encodeM (g : OpGroup) (ri : Reg) (m : AddrMode) :
    decode (encodeM g ri m) = decodeGroup (encodeM g ri m) g := decode_of_opcode g (opField_formatM g _ _ _ _)

@[simp] theorem decode_encodeT (g : OpGroup) (ri : Reg) (src : Source) :
    decode (encodeT g ri src) = decodeGroup (encodeT g ri src) g := by
  cases src <;> exact decode_of_opcode g (opField_formatM g _ _ _ _)

@[simp] theorem decode_formatJ (g : OpGroup) (ri : Reg) (cc : BitVec 4) (ctl : BitVec 1) (addr16 : Addr) :
    decode (formatJ g ri cc ctl addr16) = decodeGroup (formatJ g ri cc ctl addr16) g :=
  decode_of_opcode g (opField_formatJ g _ _ _ _)

@[simp] theorem decode_encodeJ (g : OpGroup) (cc : BitVec 4) (m : AddrMode) :
    decode (encodeJ g cc m) = decodeGroup (encodeJ g cc m) g := decode_formatJ g _ _ _ _

@[simp] theorem decode_formatA (g : OpGroup) (ri rj : Reg) (tail : BitVec 17) :
    decode (formatA g ri rj tail) = decodeGroup (formatA g ri rj tail) g :=
  decode_of_opcode g (opField_formatA g _ _ _)

/-- The decoder reads an encoded well-formed instruction back, format by format. -/
theorem decode_encode {i : Instr} (h : i.wf = true) : decode (encode i) = .ok i := by
  cases i with
  | ld ri m | st ri m => simp [encode, decodeGroup, modeM_encodeM _ _ h]
  | cpy ri src | push src | pop ri => simp [encode, decodeGroup]
  | jmp m | jc m | jn m | jv m | jz m | jnc m | jnn m | jnv m | jnz m | jge m | jl m =>
    simp [encode, decodeGroup, decodeJump, modeJ_encodeJ _ _ h]
  | call m => simp [encode, decodeGroup, decodeCall, modeJ_encodeJ _ _ h]
  | ret | reti => simp [encode, decodeGroup, decodeReturn]
  | srl ri rj n | sll ri rj n | sra ri rj n | rtr ri rj n | rtl ri rj n | rrc ri rj n | rlc ri rj n =>
    simp [encode, decodeGroup, decodeShift]
  | add ri rj b | sub ri rj b | cmp rj b | and ri rj b | bic ri rj b | or ri rj b | xor ri rj b | fa ri rj b | fs ri rj b
  | fm ri rj b | fd ri rj b | not ri rj | fti ri rj | itf ri rj => simp [encode, decodeGroup]

/-- Settles O15: every field of the encoded word is read back. -/
theorem decodeOfEncode : Obligations.DecodeOfEncode := fun _ h => decode_encode h

/-- Settles O14: the decoder on nine words. -/
theorem sampleWordsDecode : Obligations.SampleWordsDecode := by
  unfold Obligations.SampleWordsDecode
  decide

end Sys2Proof
end

section
namespace Sys2Proof

open Sys2Proof.Machine

/-! ## What a decoded or an illegal word says of itself (R91 – R95) -/

/-- A word that decodes is decoded by the group of its opcode. -/
theorem decodeGroup_of_decode {w : Word} {i : Instr} (h : decode w = .ok i) :
    ∃ g, opField w = config.opcode g ∧ decodeGroup w g = .ok i := by
  unfold decode at h
  cases hg : groupOf (opField w) with
  | none => rw [hg] at h; cases h
  | some g => rw [hg] at h; exact ⟨g, (opcode_of_groupOf hg).symm, h⟩

/-- The forms of an index register field and Control are well formed (R60). -/
theorem addrModeOf_wf (r : Reg) (ctl : BitVec 1) (addr16 : Addr) : (addrModeOf r ctl addr16).wf = true := by
  unfold addrModeOf
  split_ifs with hr <;> simp [AddrMode.wf, hr]

/-- A decoded jump is encoded with the word's condition selector and addressing mode (R91). -/
theorem decodeJump_cases {w : Word} {i : Instr} (h : decodeJump w = .ok i) :
    i.wf = true ∧ encode i = encodeJ .jmp (ccField w) (modeJ w) ∧ usedBits i = usedBits.flowBits (modeJ w) := by
  have cc : ∀ n, (ccField w).toNat = n → ccField w = BitVec.ofNat 4 n := by rintro n rfl; simp
  unfold decodeJump at h
  split at h <;> cases h <;> rw [cc _ ‹_›] <;> exact ⟨addrModeOf_wf _ _ _, rfl, rfl⟩

/-- A decoded shift or rotate is encoded with the word's registers, Control and count (R92). -/
theorem decodeShift_cases {w : Word} {i : Instr} (h : decodeShift w = .ok i) :
    i.wf = true ∧ encode i = formatA .rs (riField w) (rjField w) (tailS (sctlField w) (countS w)) ∧
      usedBits i = usedBits.shiftBits (countS w) := by
  have ctl : ∀ n, (sctlField w).toNat = n → sctlField w = BitVec.ofNat 3 n := by rintro n rfl; simp
  unfold decodeShift at h
  split at h <;> cases h <;> rw [ctl _ ‹_›] <;> exact ⟨rfl, rfl, rfl⟩

/-- A decoded CALL has the condition bits 0000 (R93, decision D16). -/
theorem decodeCall_cases {w : Word} {i : Instr} (h : decodeCall w = .ok i) : ccField w = 0 ∧ i = .call (modeJ w) := by
  unfold decodeCall at h
  split_ifs at h with hcc
  cases h
  exact ⟨hcc, rfl⟩

/-- A decoded RET or RETI has the condition bits 0000 (R84, R93, decision D16). -/
theorem decodeReturn_cases {w : Word} {i : Instr} (h : decodeReturn w = .ok i) :
    ccField w = 0 ∧ (ctlField w = 0 ∧ i = .ret ∨ ctlField w = 1 ∧ i = .reti) := by
  have one : ∀ c : BitVec 1, c ≠ 0 → c = 1 := by decide
  unfold decodeReturn at h
  split_ifs at h with hcc hctl <;> cases h
  · exact ⟨hcc, .inl ⟨hctl, rfl⟩⟩
  · exact ⟨hcc, .inr ⟨one _ hctl, rfl⟩⟩

/-- Settles O18: every addressing mode that the decoder answers comes from `addrModeOf`. -/
theorem decodedIsWellFormed : Obligations.DecodedIsWellFormed := by
  intro w i h
  obtain ⟨g, -, h⟩ := decodeGroup_of_decode h
  cases g with
  | ld | st => cases h; exact addrModeOf_wf _ _ _
  | jmp => exact (decodeJump_cases h).1
  | call =>
    obtain ⟨-, rfl⟩ := decodeCall_cases h
    exact addrModeOf_wf _ _ _
  | ret => obtain ⟨-, ⟨-, rfl⟩ | ⟨-, rfl⟩⟩ := decodeReturn_cases h <;> rfl
  | rs => exact (decodeShift_cases h).1
  | _ => cases h; rfl

/-! ## The illegal words (R93) -/

/-- A word is illegal because its opcode is assigned to no group, or for its group's own reason. -/
theorem decode_error_iff {w : Word} {why : Illegal} :
    decode w = .error why ↔ (23 ≤ (opField w).toNat ∧ why = .unassignedOpcode) ∨
      ∃ g, opField w = config.opcode g ∧ decodeGroup w g = .error why := by
  unfold decode
  cases hg : groupOf (opField w) with
  | none =>
    have none_of : ∀ g, opField w ≠ config.opcode g := fun g e => by simp [e] at hg
    simp [(groupOf_none _).1 hg, none_of, eq_comm]
  | some g =>
    have hop := opcode_of_groupOf hg
    have low : ¬23 ≤ (opField w).toNat := fun h => by simp [(groupOf_none _).2 h] at hg
    have unique : ∀ g', opField w = config.opcode g' ↔ g' = g :=
      fun g' => ⟨fun e => (opcode_injective (hop.trans e)).symm, fun e => e ▸ hop.symm⟩
    simp [low, unique]

/-- The condition selectors that are not in the Jump Condition table (R91, R93). -/
theorem decodeJump_error_iff {w : Word} {why : Illegal} :
    decodeJump w = .error why ↔
      ccField w ∈ [0b0011#4, 0b0101#4, 0b1010#4, 0b1100#4, 0b1111#4] ∧ why = .unlistedCondition := by
  have cc : ∀ n, (ccField w).toNat = n → ccField w = BitVec.ofNat 4 n := by rintro n rfl; simp
  have rest : ∀ c : BitVec 4, c.toNat ≠ 0b0000 → c.toNat ≠ 0b1000 → c.toNat ≠ 0b0100 → c.toNat ≠ 0b0010 →
      c.toNat ≠ 0b0001 → c.toNat ≠ 0b0111 → c.toNat ≠ 0b1011 → c.toNat ≠ 0b1101 → c.toNat ≠ 0b1110 → c.toNat ≠ 0b0110 →
      c.toNat ≠ 0b1001 → c ∈ [0b0011#4, 0b0101#4, 0b1010#4, 0b1100#4, 0b1111#4] := by decide
  unfold decodeJump
  split
  case h_12 =>
    have unlisted := by apply rest (ccField w) <;> assumption
    simp only [unlisted, true_and, Except.error.injEq, eq_comm]
  all_goals rw [cc _ ‹_›]; simp

/-- The Control of format S that selects no operation (R92, R93). -/
theorem decodeShift_error_iff {w : Word} {why : Illegal} :
    decodeShift w = .error why ↔ sctlField w = 0b011#3 ∧ why = .unlistedShift := by
  have ctl : ∀ n, (sctlField w).toNat = n → sctlField w = BitVec.ofNat 3 n := by rintro n rfl; simp
  have rest : ∀ c : BitVec 3, c.toNat ≠ 0b000 → c.toNat ≠ 0b001 → c.toNat ≠ 0b010 → c.toNat ≠ 0b100 → c.toNat ≠ 0b101 →
      c.toNat ≠ 0b110 → c.toNat ≠ 0b111 → c ∈ [0b011#3] := by decide
  unfold decodeShift
  split
  case h_8 =>
    have unlisted : sctlField w = 0b011#3 := List.mem_singleton.1 (by apply rest (sctlField w) <;> assumption)
    simp only [unlisted, true_and, Except.error.injEq, eq_comm]
  all_goals rw [ctl _ ‹_›]; simp

/-- Condition bits other than 0000 on CALL (R93, decision D16). -/
theorem decodeCall_error_iff {w : Word} {why : Illegal} :
    decodeCall w = .error why ↔ ccField w ≠ 0 ∧ why = .conditionOnCallOrReturn := by
  unfold decodeCall
  split_ifs with hcc
  · simp [hcc]
  · exact ⟨fun h => ⟨hcc, (Except.error.inj h).symm⟩, fun ⟨_, h⟩ => h ▸ rfl⟩

/-- Condition bits other than 0000 on RET and RETI (R93, decision D16). -/
theorem decodeReturn_error_iff {w : Word} {why : Illegal} :
    decodeReturn w = .error why ↔ ccField w ≠ 0 ∧ why = .conditionOnCallOrReturn := by
  unfold decodeReturn
  split_ifs with hcc
  · simp [hcc]
  · simp [hcc]
  · exact ⟨fun h => ⟨hcc, (Except.error.inj h).symm⟩, fun ⟨_, h⟩ => h ▸ rfl⟩

/-- The words of an assigned opcode that are illegal (R93). -/
theorem decodeGroup_error_iff {w : Word} {g : OpGroup} {why : Illegal} :
    decodeGroup w g = .error why ↔
      (g = .jmp ∧ ccField w ∈ [0b0011#4, 0b0101#4, 0b1010#4, 0b1100#4, 0b1111#4] ∧ why = .unlistedCondition) ∨
      (g = .rs ∧ sctlField w = 0b011#3 ∧ why = .unlistedShift) ∨
      ((g = .call ∨ g = .ret) ∧ ccField w ≠ 0 ∧ why = .conditionOnCallOrReturn) := by
  cases g with
  | jmp => simpa [decodeGroup] using decodeJump_error_iff
  | rs => simpa [decodeGroup] using decodeShift_error_iff
  | call => simpa [decodeGroup] using decodeCall_error_iff
  | ret => simpa [decodeGroup] using decodeReturn_error_iff
  | _ => simp [decodeGroup]

/-- Settles O19: each reason is that of one group, or of the opcodes that are assigned to none. -/
theorem illegalWordsAreTheListed : Obligations.IllegalWordsAreTheListed := by
  intro w
  simp only [decode_error_iff, decodeGroup_error_iff]
  refine ⟨?_, ?_, ?_, ?_⟩
  · simp [opField]
  · simp [opField, ccField, config, Config.defaultOpcode]
  · simp [opField, sctlField, config, Config.defaultOpcode]
  · simp [opField, ccField, config, Config.defaultOpcode, or_and_right, and_or_left, exists_or]

end Sys2Proof
end

section
namespace Sys2Proof

open Sys2Proof.Machine
open BitVec (allOnes)

/-! ## A word as its fields, and the fields that a mask keeps (R82 – R86, R88, R99) -/

/-- Two neighbouring fields are one. -/
theorem field_append (w : Word) {lo hi m n : Nat} (h : hi = lo + n) :
    w.extractLsb' hi m ++ w.extractLsb' lo n = w.extractLsb' lo (m + n) :=
  BitVec.extractLsb'_append_extractLsb'_eq_extractLsb' h

/-- A word is its fields in the places of formats M and T. -/
theorem word_formatM (w : Word) :
    opField w ++ regBits (riField w) ++ regBits (rjField w) ++ ctlField w ++ low16Field w = w := by
  show w.extractLsb' 27 5 ++ w.extractLsb' 22 5 ++ w.extractLsb' 17 5 ++ w.extractLsb' 16 1 ++ w.extractLsb' 0 16 = w
  rw [field_append w (by rfl), field_append w (by rfl), field_append w (by rfl), field_append w (by rfl)]
  exact field_all w

/-- A word is its fields in the places of format J, with bit 17. -/
theorem word_formatJ (w : Word) :
    opField w ++ regBits (riField w) ++ ccField w ++ w.extractLsb' 17 1 ++ ctlField w ++ low16Field w = w := by
  show w.extractLsb' 27 5 ++ w.extractLsb' 22 5 ++ w.extractLsb' 18 4 ++ w.extractLsb' 17 1 ++ w.extractLsb' 16 1
    ++ w.extractLsb' 0 16 = w
  rw [field_append w (by rfl), field_append w (by rfl), field_append w (by rfl), field_append w (by rfl),
    field_append w (by rfl)]
  exact field_all w

/-- A word is its fields in the places of formats A and S. -/
theorem word_formatA (w : Word) :
    opField w ++ regBits (riField w) ++ regBits (rjField w) ++ w.extractLsb' 0 17 = w := by
  show w.extractLsb' 27 5 ++ w.extractLsb' 22 5 ++ w.extractLsb' 17 5 ++ w.extractLsb' 0 17 = w
  rw [field_append w (by rfl), field_append w (by rfl), field_append w (by rfl)]
  exact field_all w

/-- A mask over four fields. -/
theorem and_append₄ {k₁ k₂ k₃ k₄ : Nat} (a a' : BitVec k₁) (b b' : BitVec k₂) (c c' : BitVec k₃) (d d' : BitVec k₄) :
    (a ++ b ++ c ++ d) &&& (a' ++ b' ++ c' ++ d') = (a &&& a') ++ (b &&& b') ++ (c &&& c') ++ (d &&& d') := by
  simp only [BitVec.and_append]

/-- A mask over the fields of formats M and T. -/
theorem word_and_formatM (w : Word) (mo mi mj : BitVec 5) (mc : BitVec 1) (ml : BitVec 16) :
    w &&& (mo ++ mi ++ mj ++ mc ++ ml) =
      (opField w &&& mo) ++ (regBits (riField w) &&& mi) ++ (regBits (rjField w) &&& mj) ++ (ctlField w &&& mc)
        ++ (low16Field w &&& ml) := by
  conv_lhs => rw [← word_formatM w]
  exact BitVec.and_append.trans (congrArg (· ++ _) (and_append₄ ..))

/-- A mask over the fields of format J. -/
theorem word_and_formatJ (w : Word) (mo mi : BitVec 5) (mcc : BitVec 4) (m17 mc : BitVec 1) (ml : BitVec 16) :
    w &&& (mo ++ mi ++ mcc ++ m17 ++ mc ++ ml) =
      (opField w &&& mo) ++ (regBits (riField w) &&& mi) ++ (ccField w &&& mcc) ++ (w.extractLsb' 17 1 &&& m17)
        ++ (ctlField w &&& mc) ++ (low16Field w &&& ml) := by
  conv_lhs => rw [← word_formatJ w]
  exact BitVec.and_append.trans (congrArg (· ++ _) (BitVec.and_append.trans (congrArg (· ++ _) (and_append₄ ..))))

/-- A mask over the fields of formats A and S. -/
theorem word_and_formatA (w : Word) (mo mi mj : BitVec 5) (mt : BitVec 17) :
    w &&& (mo ++ mi ++ mj ++ mt) =
      (opField w &&& mo) ++ (regBits (riField w) &&& mi) ++ (regBits (rjField w) &&& mj) ++ (w.extractLsb' 0 17 &&& mt) := by
  conv_lhs => rw [← word_formatA w]
  exact and_append₄ ..

/-- A one-bit field that is not 0 is 1. -/
theorem bit_eq_one {c : BitVec 1} (h : c ≠ 0) : c = 1#1 := by revert c; decide

/-! ## Encoding what was decoded, operand form by operand form -/

section
variable {g : OpGroup} {w : Word} (hg : opField w = config.opcode g)
include hg

/-- Format M's word, with the Address field cleared in Register Direct mode. -/
theorem encodeM_fields : encodeM g (riField w) (modeM w) = w &&& usedBits.memBits (modeM w) := by
  have direct : (0xFFFF0000 : Word) = allOnes 5 ++ allOnes 5 ++ allOnes 5 ++ allOnes 1 ++ 0#16 := by decide
  have whole : (0xFFFFFFFF : Word) = allOnes 5 ++ allOnes 5 ++ allOnes 5 ++ allOnes 1 ++ allOnes 16 := by decide
  unfold modeM addrModeOf
  split_ifs with hr hc hc <;>
    simp only [encodeM, formatM, AddrMode.regField, AddrMode.ctlBit, AddrMode.addrField, usedBits.memBits, direct, whole,
      word_and_formatM, hg, BitVec.and_allOnes, BitVec.and_zero]
  · rw [hr, hc]
  · rw [hr, bit_eq_one hc]; rfl
  · rw [hc]
  · rw [bit_eq_one hc]; rfl

/-- Format J's word, with bit 17 cleared, and the Address field in Register Direct mode. -/
theorem encodeJ_fields : encodeJ g (ccField w) (modeJ w) = w &&& usedBits.flowBits (modeJ w) := by
  have direct : (0xFFFD0000 : Word) = allOnes 5 ++ allOnes 5 ++ allOnes 4 ++ 0#1 ++ allOnes 1 ++ 0#16 := by decide
  have whole : (0xFFFDFFFF : Word) = allOnes 5 ++ allOnes 5 ++ allOnes 4 ++ 0#1 ++ allOnes 1 ++ allOnes 16 := by decide
  unfold modeJ addrModeOf
  split_ifs with hr hc hc <;>
    simp only [encodeJ, formatJ, AddrMode.regField, AddrMode.ctlBit, AddrMode.addrField, usedBits.flowBits, direct, whole,
      word_and_formatJ, hg, BitVec.and_allOnes, BitVec.and_zero]
  · rw [hr, hc]
  · rw [hr, bit_eq_one hc]; rfl
  · rw [hc]
  · rw [bit_eq_one hc]; rfl

end

/-- Rk in its place, in the fields below Rj (R85). -/
theorem tailA_reg_eq (rk : Reg) : tailA (.reg rk) = regBits rk ++ 0#11 ++ 0#1 := by revert rk; decide

/-- Below Rj, format A's register form with its unused bits cleared (R85). -/
theorem tailA_reg_fields {w : Word} (h : ctl0Field w = 0) : w.extractLsb' 0 17 &&& 0x1F001#17 = tailA (.reg (rkFieldA w)) := by
  have fields : regBits (rkFieldA w) ++ w.extractLsb' 1 11 ++ ctl0Field w = w.extractLsb' 0 17 := by
    show w.extractLsb' 12 5 ++ w.extractLsb' 1 11 ++ w.extractLsb' 0 1 = w.extractLsb' 0 17
    rw [field_append w (by rfl), field_append w (by rfl)]
  have mask : 0x1F001#17 = allOnes 5 ++ 0#11 ++ allOnes 1 := by decide
  rw [tailA_reg_eq, ← fields, mask, h]
  exact BitVec.and_append.trans (congrArg₂ (· ++ ·)
    (BitVec.and_append.trans (congrArg₂ (· ++ ·) BitVec.and_allOnes BitVec.and_zero)) BitVec.and_allOnes)

/-- Below Rj, format A's constant form, which uses every bit (R85). -/
theorem tailA_const_fields {w : Word} (h : ctl0Field w ≠ 0) : w.extractLsb' 0 17 = tailA (.const (constFieldA w)) := by
  show _ = w.extractLsb' 1 16 ++ 1#1
  rw [← bit_eq_one h, ctl0Field, field_append w (by rfl)]

/-- Below Rj, format S's fields with the unused bits cleared (R86). -/
theorem tailS_reg_fields {w : Word} (h : ctl0Field w = 0) :
    w.extractLsb' 0 17 &&& 0x1F00F#17 = tailS (sctlField w) (.reg (rkFieldS w)) := by
  have fields : regBits (rkFieldS w) ++ w.extractLsb' 4 8 ++ sctlField w ++ ctl0Field w = w.extractLsb' 0 17 := by
    show w.extractLsb' 12 5 ++ w.extractLsb' 4 8 ++ w.extractLsb' 1 3 ++ w.extractLsb' 0 1 = w.extractLsb' 0 17
    rw [field_append w (by rfl), field_append w (by rfl), field_append w (by rfl)]
  have mask : 0x1F00F#17 = allOnes 5 ++ 0#8 ++ allOnes 3 ++ allOnes 1 := by decide
  rw [← fields, mask, h]
  exact (and_append₄ ..).trans (by simp only [BitVec.and_allOnes, BitVec.and_zero]; rfl)

/-- The same for the constant form (R86). -/
theorem tailS_const_fields {w : Word} (h : ctl0Field w ≠ 0) :
    w.extractLsb' 0 17 &&& 0x1F80F#17 = tailS (sctlField w) (.const (constFieldS w)) := by
  have fields : constFieldS w ++ w.extractLsb' 4 7 ++ sctlField w ++ ctl0Field w = w.extractLsb' 0 17 := by
    show w.extractLsb' 11 6 ++ w.extractLsb' 4 7 ++ w.extractLsb' 1 3 ++ w.extractLsb' 0 1 = w.extractLsb' 0 17
    rw [field_append w (by rfl), field_append w (by rfl), field_append w (by rfl)]
  have mask : 0x1F80F#17 = allOnes 6 ++ 0#7 ++ allOnes 3 ++ allOnes 1 := by decide
  rw [← fields, mask, bit_eq_one h]
  exact (and_append₄ ..).trans (by simp only [BitVec.and_allOnes, BitVec.and_zero]; rfl)

section
variable {g : OpGroup} {w : Word} (hg : opField w = config.opcode g)
include hg

/-- Format A's word, with bits [11:1] cleared in the register form (R85). -/
theorem formatA_fields : formatA g (riField w) (rjField w) (tailA (sourceA w)) = w &&& usedBits.aluBits (sourceA w) := by
  have reg : (0xFFFFF001 : Word) = allOnes 5 ++ allOnes 5 ++ allOnes 5 ++ 0x1F001#17 := by decide
  have const : (0xFFFFFFFF : Word) = allOnes 5 ++ allOnes 5 ++ allOnes 5 ++ allOnes 17 := by decide
  unfold sourceA
  split_ifs with h <;> simp only [usedBits.aluBits, formatA, reg, const, word_and_formatA, hg, BitVec.and_allOnes]
  · rw [tailA_reg_fields h]
  · rw [tailA_const_fields h]

/-- CMP's word: format A's, with Ri cleared (R153). -/
theorem cmp_fields :
    formatA g 0 (rjField w) (tailA (sourceA w)) = w &&& usedBits (.cmp (rjField w) (sourceA w)) := by
  have reg : (0xF83FF001 : Word) = allOnes 5 ++ 0#5 ++ allOnes 5 ++ 0x1F001#17 := by decide
  have const : (0xF83FFFFF : Word) = allOnes 5 ++ 0#5 ++ allOnes 5 ++ allOnes 17 := by decide
  unfold sourceA
  split_ifs with h <;>
    simp only [usedBits, formatA, reg, const, word_and_formatA, hg, BitVec.and_allOnes, BitVec.and_zero]
  · rw [tailA_reg_fields h]; rfl
  · rw [tailA_const_fields h]; rfl

/-- The word of a format A instruction with one operand: nothing below Rj is used. -/
theorem formatA_unary_fields : formatA g (riField w) (rjField w) 0 = w &&& 0xFFFE0000 := by
  have mask : (0xFFFE0000 : Word) = allOnes 5 ++ allOnes 5 ++ allOnes 5 ++ 0#17 := by decide
  simp only [formatA, mask, word_and_formatA, hg, BitVec.and_allOnes, BitVec.and_zero]
  rfl

/-- Format S's word, with its unused bits cleared (R86). -/
theorem formatS_fields :
    formatA g (riField w) (rjField w) (tailS (sctlField w) (countS w)) = w &&& usedBits.shiftBits (countS w) := by
  have reg : (0xFFFFF00F : Word) = allOnes 5 ++ allOnes 5 ++ allOnes 5 ++ 0x1F00F#17 := by decide
  have const : (0xFFFFF80F : Word) = allOnes 5 ++ allOnes 5 ++ allOnes 5 ++ 0x1F80F#17 := by decide
  unfold countS
  split_ifs with h <;> simp only [usedBits.shiftBits, formatA, reg, const, word_and_formatA, hg, BitVec.and_allOnes]
  · rw [tailS_reg_fields h]
  · rw [tailS_const_fields h]

end

/-- CPY's word (R83). -/
theorem cpy_fields {w : Word} (hg : opField w = config.opcode .cpy) :
    encode (.cpy (riField w) (sourceT w)) = w &&& usedBits (.cpy (riField w) (sourceT w)) := by
  have reg : (0xFFFF0000 : Word) = allOnes 5 ++ allOnes 5 ++ allOnes 5 ++ allOnes 1 ++ 0#16 := by decide
  have const : (0xFFC1FFFF : Word) = allOnes 5 ++ allOnes 5 ++ 0#5 ++ allOnes 1 ++ allOnes 16 := by decide
  unfold sourceT
  split_ifs with h <;>
    simp only [usedBits, encode, encodeT, formatM, reg, const, word_and_formatM, hg, BitVec.and_allOnes,
      BitVec.and_zero]
  · rw [h]; rfl
  · rw [bit_eq_one h]; rfl

/-- PUSH's word, which does not use Ri (R121). -/
theorem push_fields {w : Word} (hg : opField w = config.opcode .push) :
    encode (.push (sourceT w)) = w &&& usedBits (.push (sourceT w)) := by
  have reg : (0xF83F0000 : Word) = allOnes 5 ++ 0#5 ++ allOnes 5 ++ allOnes 1 ++ 0#16 := by decide
  have const : (0xF801FFFF : Word) = allOnes 5 ++ 0#5 ++ 0#5 ++ allOnes 1 ++ allOnes 16 := by decide
  unfold sourceT
  split_ifs with h <;>
    simp only [usedBits, encode, encodeT, formatM, reg, const, word_and_formatM, hg, BitVec.and_allOnes,
      BitVec.and_zero]
  · rw [h]; rfl
  · rw [bit_eq_one h]; rfl

/-- POP's word, which uses the opcode and Ri alone (R122). -/
theorem pop_fields {w : Word} (hg : opField w = config.opcode .pop) :
    encode (.pop (riField w)) = w &&& usedBits (.pop (riField w)) := by
  have mask : (0xFFC00000 : Word) = allOnes 5 ++ allOnes 5 ++ 0#5 ++ 0#1 ++ 0#16 := by decide
  simp only [usedBits, encode, encodeT, formatM, mask, word_and_formatM, hg, BitVec.and_allOnes, BitVec.and_zero]
  rfl

/-- The word of RET and RETI: the opcode, the condition bits and Control (R84, decision D16). -/
theorem return_fields {w : Word} (hg : opField w = config.opcode .ret) (hcc : ccField w = 0) :
    formatJ .ret 0 0 (ctlField w) 0 = w &&& 0xF83D0000 := by
  have mask : (0xF83D0000 : Word) = allOnes 5 ++ 0#5 ++ allOnes 4 ++ 0#1 ++ allOnes 1 ++ 0#16 := by decide
  simp only [formatJ, mask, word_and_formatJ, hg, hcc, BitVec.and_allOnes, BitVec.and_zero]
  rfl

/-- Settles O16: a word is its fields, the encoder writes those that the instruction uses, and the mask keeps the same ones. -/
theorem encodeOfDecode : Obligations.EncodeOfDecode := by
  intro w i h
  obtain ⟨g, hg, h⟩ := decodeGroup_of_decode h
  cases g with
  | ld | st => cases h; exact encodeM_fields hg
  | cpy => cases h; exact cpy_fields hg
  | push => cases h; exact push_fields hg
  | pop => cases h; exact pop_fields hg
  | jmp =>
    obtain ⟨-, word, bits⟩ := decodeJump_cases h
    rw [word, bits, encodeJ_fields hg]
  | call =>
    obtain ⟨hcc, rfl⟩ := decodeCall_cases h
    exact (congrArg (encodeJ .call · _) hcc.symm).trans (encodeJ_fields hg)
  | ret =>
    obtain ⟨hcc, ⟨hctl, rfl⟩ | ⟨hctl, rfl⟩⟩ := decodeReturn_cases h <;>
      exact (congrArg (formatJ .ret 0 0 · 0) hctl.symm).trans (return_fields hg hcc)
  | rs =>
    obtain ⟨-, word, bits⟩ := decodeShift_cases h
    rw [word, bits, formatS_fields hg]
  | add | sub | and | bic | or | xor | fa | fs | fm | fd => cases h; exact formatA_fields hg
  | cmp => cases h; exact cmp_fields hg
  | not | fti | itf => cases h; exact formatA_unary_fields hg

end Sys2Proof
end

section
namespace Sys2Proof

open Sys2Proof.Machine

/-! ## Words that agree on the used bits (decision D3) -/

/-- The mask `u` keeps the `k` bits from `lo` up. -/
abbrev Keeps (u : Word) (lo k : Nat) : Prop := u.extractLsb' lo k = BitVec.allOnes k

/-- A field that the mask keeps reads the same of two words that agree under the mask. -/
theorem field_of_mask {w w' u : Word} (h : w' &&& u = w &&& u) (lo k : Nat) (hu : Keeps u lo k) :
    w'.extractLsb' lo k = w.extractLsb' lo k := by
  have hf := congrArg (BitVec.extractLsb' lo k) h
  simpa only [BitVec.extractLsb'_and, hu, BitVec.and_allOnes] using hf

/-- A register field that the mask keeps. -/
theorem regField_of_mask {w w' u : Word} (h : w' &&& u = w &&& u) (lo : Nat) (hu : Keeps u lo 5) :
    (w'.extractLsb' lo 5).toFin = (w.extractLsb' lo 5).toFin := congrArg BitVec.toFin (field_of_mask h lo 5 hu)

/-- Every instruction uses its opcode field (R99). -/
theorem usedBits_keeps_opcode (i : Instr) : Keeps (usedBits i) 27 5 := by
  cases i with
  | ld _ m | st _ m => cases m <;> (simp only [usedBits, usedBits.memBits]; decide)
  | jmp m | jc m | jn m | jv m | jz m | jnc m | jnn m | jnv m | jnz m | jge m | jl m | call m =>
    cases m <;> (simp only [usedBits, usedBits.flowBits]; decide)
  | add _ _ b | sub _ _ b | and _ _ b | bic _ _ b | or _ _ b | xor _ _ b | fa _ _ b | fs _ _ b | fm _ _ b | fd _ _ b =>
    cases b <;> (simp only [usedBits, usedBits.aluBits]; decide)
  | srl _ _ n | sll _ _ n | sra _ _ n | rtr _ _ n | rtl _ _ n | rrc _ _ n | rlc _ _ n =>
    cases n <;> (simp only [usedBits, usedBits.shiftBits]; decide)
  | cpy _ b | push b | cmp _ b => cases b <;> (simp only [usedBits]; decide)
  | pop _ | ret | reti | not _ _ | fti _ _ | itf _ _ => simp only [usedBits]; decide

/-- Format M uses Ri, Rj and Control in every mode. -/
theorem memBits_keeps (m : AddrMode) :
    Keeps (usedBits.memBits m) 22 5 ∧ Keeps (usedBits.memBits m) 17 5 ∧ Keeps (usedBits.memBits m) 16 1 := by
  cases m <;> (simp only [usedBits.memBits]; decide)

/-- Format M uses the Address field but in Register Direct mode. -/
theorem memBits_keeps_address {m : AddrMode} (h : ∀ q, m ≠ .regDirect q) : Keeps (usedBits.memBits m) 0 16 := by
  cases m with
  | regDirect q => exact absurd rfl (h q)
  | indexed _ _ | pcRelative _ | absolute _ => simp only [usedBits.memBits]; decide

/-- Format J uses Ri, the condition bits and Control in every mode. -/
theorem flowBits_keeps (m : AddrMode) :
    Keeps (usedBits.flowBits m) 22 5 ∧ Keeps (usedBits.flowBits m) 18 4 ∧ Keeps (usedBits.flowBits m) 16 1 := by
  cases m <;> (simp only [usedBits.flowBits]; decide)

/-- Format J uses the Address field but in Register Direct mode. -/
theorem flowBits_keeps_address {m : AddrMode} (h : ∀ q, m ≠ .regDirect q) : Keeps (usedBits.flowBits m) 0 16 := by
  cases m with
  | regDirect q => exact absurd rfl (h q)
  | indexed _ _ | pcRelative _ | absolute _ => simp only [usedBits.flowBits]; decide

/-- The fields of format T's operand: Control, and Rj or the constant (R83). -/
abbrev KeepsSourceT (u : Word) : Source → Prop
  | .reg _ => Keeps u 16 1 ∧ Keeps u 17 5
  | .const _ => Keeps u 16 1 ∧ Keeps u 0 16

/-- The fields of format A's operand: Control, and Rk or the constant (R85). -/
abbrev KeepsSourceA (u : Word) : Source → Prop
  | .reg _ => Keeps u 0 1 ∧ Keeps u 12 5
  | .const _ => Keeps u 0 1 ∧ Keeps u 1 16

/-- CPY uses Ri and the operand. -/
theorem cpyBits_keeps (ri : Reg) (b : Source) :
    Keeps (usedBits (.cpy ri b)) 22 5 ∧ KeepsSourceT (usedBits (.cpy ri b)) b := by
  cases b <;> (simp only [usedBits, KeepsSourceT]; decide)

/-- PUSH uses the operand. -/
theorem pushBits_keeps (b : Source) : KeepsSourceT (usedBits (.push b)) b := by
  cases b <;> (simp only [usedBits, KeepsSourceT]; decide)

/-- Format A uses Ri, Rj and the operand. -/
theorem aluBits_keeps (b : Source) :
    Keeps (usedBits.aluBits b) 22 5 ∧ Keeps (usedBits.aluBits b) 17 5 ∧ KeepsSourceA (usedBits.aluBits b) b := by
  cases b <;> (simp only [usedBits.aluBits, KeepsSourceA]; decide)

/-- CMP uses Rj and the operand. -/
theorem cmpBits_keeps (rj : Reg) (b : Source) :
    Keeps (usedBits (.cmp rj b)) 17 5 ∧ KeepsSourceA (usedBits (.cmp rj b)) b := by
  cases b <;> (simp only [usedBits, KeepsSourceA]; decide)

/-- Format S uses Ri, Rj and both Controls. -/
theorem shiftBits_keeps (n : Count) :
    Keeps (usedBits.shiftBits n) 22 5 ∧ Keeps (usedBits.shiftBits n) 17 5 ∧ Keeps (usedBits.shiftBits n) 1 3 ∧
      Keeps (usedBits.shiftBits n) 0 1 := by
  cases n <;> (simp only [usedBits.shiftBits]; decide)

/-- An addressing mode that uses its Address field reads the same of two equal fields; Register Direct has none (R60). -/
theorem addrModeOf_agree {r : Reg} {ctl : BitVec 1} {a a' : Addr} (h : (∀ q, addrModeOf r ctl a ≠ .regDirect q) → a' = a) :
    addrModeOf r ctl a' = addrModeOf r ctl a := by
  by_cases direct : r ≠ 0 ∧ ctl ≠ 0
  · rw [addrModeOf, addrModeOf, if_neg direct.1, if_neg direct.2, if_neg direct.1, if_neg direct.2]
  · rw [h]
    intro q
    unfold addrModeOf
    split_ifs <;> simp_all

section
variable {w w' : Word}

/-- Format M: two words that agree on the used bits have the same Ri and addressing mode. -/
theorem formatM_agree (h : w' &&& usedBits.memBits (modeM w) = w &&& usedBits.memBits (modeM w)) :
    riField w' = riField w ∧ modeM w' = modeM w := by
  obtain ⟨hri, hrj, hctl⟩ := memBits_keeps (modeM w)
  have rj : rjField w' = rjField w := regField_of_mask h 17 hrj
  have ctl : ctlField w' = ctlField w := field_of_mask h 16 1 hctl
  refine ⟨regField_of_mask h 22 hri, ?_⟩
  rw [modeM, rj, ctl]
  exact addrModeOf_agree fun hm => field_of_mask h 0 16 (memBits_keeps_address hm)

/-- Format J: two words that agree on the used bits have the same condition bits and addressing mode. -/
theorem formatJ_agree (h : w' &&& usedBits.flowBits (modeJ w) = w &&& usedBits.flowBits (modeJ w)) :
    ccField w' = ccField w ∧ modeJ w' = modeJ w := by
  obtain ⟨hri, hcc, hctl⟩ := flowBits_keeps (modeJ w)
  have ri : riField w' = riField w := regField_of_mask h 22 hri
  have ctl : ctlField w' = ctlField w := field_of_mask h 16 1 hctl
  refine ⟨field_of_mask h 18 4 hcc, ?_⟩
  rw [modeJ, ri, ctl]
  exact addrModeOf_agree fun hm => field_of_mask h 0 16 (flowBits_keeps_address hm)

/-- Format T's operand, read of two words that agree on its fields. -/
theorem sourceT_agree {u : Word} (h : w' &&& u = w &&& u) (hu : KeepsSourceT u (sourceT w)) : sourceT w' = sourceT w := by
  unfold sourceT at hu ⊢
  split_ifs at hu with h0 <;> obtain ⟨hctl, hfield⟩ := hu
  · have ctl : ctlField w' = 0 := (field_of_mask h 16 1 hctl).trans h0
    rw [if_pos ctl, if_pos h0]
    exact congrArg Source.reg (regField_of_mask h 17 hfield)
  · have ctl : ctlField w' ≠ 0 := fun e => h0 ((field_of_mask h 16 1 hctl).symm.trans e)
    rw [if_neg ctl, if_neg h0]
    exact congrArg Source.const (field_of_mask h 0 16 hfield)

/-- Format A's operand, read of two words that agree on its fields. -/
theorem sourceA_agree {u : Word} (h : w' &&& u = w &&& u) (hu : KeepsSourceA u (sourceA w)) : sourceA w' = sourceA w := by
  unfold sourceA at hu ⊢
  split_ifs at hu with h0 <;> obtain ⟨hctl, hfield⟩ := hu
  · have ctl : ctl0Field w' = 0 := (field_of_mask h 0 1 hctl).trans h0
    rw [if_pos ctl, if_pos h0]
    exact congrArg Source.reg (regField_of_mask h 12 hfield)
  · have ctl : ctl0Field w' ≠ 0 := fun e => h0 ((field_of_mask h 0 1 hctl).symm.trans e)
    rw [if_neg ctl, if_neg h0]
    exact congrArg Source.const (field_of_mask h 1 16 hfield)

/-- Format S's count, read of two words that agree on the used bits. -/
theorem countS_agree (h : w' &&& usedBits.shiftBits (countS w) = w &&& usedBits.shiftBits (countS w)) :
    countS w' = countS w := by
  obtain ⟨-, -, -, hctl⟩ := shiftBits_keeps (countS w)
  have ctl : ctl0Field w' = ctl0Field w := field_of_mask h 0 1 hctl
  unfold countS at h ⊢
  rw [ctl]
  split_ifs at h ⊢ with h0
  · exact congrArg Count.reg (regField_of_mask h 12 (by simp only [usedBits.shiftBits]; decide))
  · exact congrArg Count.const (field_of_mask h 11 6 (by simp only [usedBits.shiftBits]; decide))

end

/-- Settles O17: a word that agrees with a decoded one on its used bits has the same opcode and the same fields. -/
theorem unusedBitsAreIgnored : Obligations.UnusedBitsAreIgnored := by
  intro w w' i hw h
  obtain ⟨g, hg, hw⟩ := decodeGroup_of_decode hw
  have group : decode w' = decodeGroup w' g := decode_of_opcode g ((field_of_mask h 27 5 (usedBits_keeps_opcode i)).trans hg)
  cases g with
  | ld | st =>
    cases hw
    obtain ⟨ri, mode⟩ := formatM_agree h
    rw [group, decodeGroup, ri, mode]
  | cpy =>
    cases hw
    obtain ⟨hri, hb⟩ := cpyBits_keeps (riField w) (sourceT w)
    have ri : riField w' = riField w := regField_of_mask h 22 hri
    rw [group, decodeGroup, ri, sourceT_agree h hb]
  | push =>
    cases hw
    rw [group, decodeGroup, sourceT_agree h (pushBits_keeps _)]
  | pop =>
    cases hw
    have ri : riField w' = riField w := regField_of_mask h 22 (by simp only [usedBits]; decide)
    rw [group, decodeGroup, ri]
  | jmp =>
    obtain ⟨-, -, bits⟩ := decodeJump_cases hw
    obtain ⟨cc, mode⟩ := formatJ_agree (bits ▸ h)
    rw [group, ← hw]
    simp only [decodeGroup, decodeJump, cc, mode]
  | call =>
    obtain ⟨-, rfl⟩ := decodeCall_cases hw
    obtain ⟨cc, mode⟩ := formatJ_agree h
    rw [group, ← hw]
    simp only [decodeGroup, decodeCall, cc, mode]
  | ret =>
    have bits : usedBits i = 0xF83D0000 := by obtain ⟨-, ⟨-, rfl⟩ | ⟨-, rfl⟩⟩ := decodeReturn_cases hw <;> rfl
    rw [bits] at h
    have cc : ccField w' = ccField w := field_of_mask h 18 4 (by decide)
    have ctl : ctlField w' = ctlField w := field_of_mask h 16 1 (by decide)
    rw [group, ← hw]
    simp only [decodeGroup, decodeReturn, cc, ctl]
  | rs =>
    obtain ⟨-, -, bits⟩ := decodeShift_cases hw
    rw [bits] at h
    obtain ⟨hri, hrj, hsctl, -⟩ := shiftBits_keeps (countS w)
    have ri : riField w' = riField w := regField_of_mask h 22 hri
    have rj : rjField w' = rjField w := regField_of_mask h 17 hrj
    have sctl : sctlField w' = sctlField w := field_of_mask h 1 3 hsctl
    rw [group, ← hw]
    simp only [decodeGroup, decodeShift, ri, rj, sctl, countS_agree h]
  | add | sub | and | bic | or | xor | fa | fs | fm | fd =>
    cases hw
    obtain ⟨hri, hrj, hb⟩ := aluBits_keeps (sourceA w)
    have ri : riField w' = riField w := regField_of_mask h 22 hri
    have rj : rjField w' = rjField w := regField_of_mask h 17 hrj
    rw [group, decodeGroup, ri, rj, sourceA_agree h hb]
  | cmp =>
    cases hw
    obtain ⟨hrj, hb⟩ := cmpBits_keeps (rjField w) (sourceA w)
    have rj : rjField w' = rjField w := regField_of_mask h 17 hrj
    rw [group, decodeGroup, rj, sourceA_agree h hb]
  | not | fti | itf =>
    cases hw
    have ri : riField w' = riField w := regField_of_mask h 22 (by simp only [usedBits]; decide)
    have rj : rjField w' = rjField w := regField_of_mask h 17 (by simp only [usedBits]; decide)
    rw [group, decodeGroup, ri, rj]

end Sys2Proof
end

section
namespace Sys2Proof.Machine

/-! ## The stack's instructions: when each completes, and when it stops (R121, R122, R144 – R146) -/

/-- The stack's entries after the two pushes of CALL and of interrupt entry. -/
theorem stack_push_push_get? {d : Nat} (h : d + 2 ≤ 16) (hs : Vector Word 16) (v w : Word) (k : Nat) :
    ((hs.set d v (by omega)).set (d + 1) w (by omega))[k]? =
      if k = d then some v else if k = d + 1 then some w else hs[k]? := by
  simp only [Vector.getElem?_set, @eq_comm _ k]
  by_cases hd : d = k
  · subst hd; simp
  · simp [hd]

/-- PUSH with a free entry. -/
theorem exec_push_ok (src : Source) {s : State} (h : s.sp.val < 16) :
    exec (.push src) s = .next { s with
      hs := s.hs.set s.sp.val (sourceValue src s), sp := ⟨s.sp.val + 1, by omega⟩, pc := s.pc + 1 } := by
  simp only [exec, execPush_eq, push_ok _ s h, Except.map, finish_ok]
  rfl

/-- PUSH on a full stack. -/
theorem exec_push_full (src : Source) {s : State} (h : ¬s.sp.val < 16) : exec (.push src) s = .fault .stackOverflow := by
  simp only [exec, execPush_eq, push_full _ s h, Except.map, finish_error]

/-- POP with an entry in use. -/
theorem exec_pop_ok (ri : Reg) {s : State} (h : 0 < s.sp.val) :
    exec (.pop ri) s = .next { s with
      x := s.x.set ri.val (s.hs[s.sp.val - 1]), sp := ⟨s.sp.val - 1, by omega⟩, pc := s.pc + 1 } := by
  simp only [exec, execPop_eq, pop_ok s h, Except.map, finish_ok]
  rfl

/-- POP on an empty stack. -/
theorem exec_pop_empty (ri : Reg) {s : State} (h : ¬0 < s.sp.val) : exec (.pop ri) s = .fault .stackUnderflow := by
  simp only [exec, execPop_eq, pop_empty s h, Except.map, finish_error]

/-- CALL with two free entries. -/
theorem exec_call_ok (m : AddrMode) {s : State} (h : s.sp.val + 2 ≤ 16) :
    exec (.call m) s = .next { s with
      hs := (s.hs.set s.sp.val ((s.pc + 1).setWidth 32) (by omega)).set (s.sp.val + 1) (s.reg 0) (by omega)
      sp := ⟨s.sp.val + 2, by omega⟩
      pc := effAddr m s } := by
  simp only [exec, execCall_eq, pushReturn_ok _ s h, Except.map, finish_ok]
  rfl

/-- CALL with fewer than two free entries. -/
theorem exec_call_full (m : AddrMode) {s : State} (h : 16 < s.sp.val + 2) : exec (.call m) s = .fault .stackOverflow := by
  simp only [exec, execCall_eq, pushReturn_full _ s h, Except.map, finish_error]

/-- RET with two entries in use. -/
theorem exec_ret_ok {s : State} (h : 2 ≤ s.sp.val) :
    exec .ret s = .next { s with
      x := s.x.set 0 (s.hs[s.sp.val - 1])
      sp := ⟨s.sp.val - 2, by omega⟩
      pc := (s.hs[s.sp.val - 2]).setWidth 16 } := by
  simp only [exec, execRet, popReturn_ok s h, Except.map, finish_ok]
  rfl

/-- RET with fewer than two entries in use. -/
theorem exec_ret_short {s : State} (h : s.sp.val < 2) : exec .ret s = .fault .stackUnderflow := by
  simp only [exec, execRet, popReturn_short s h, Except.map, finish_error]

/-- RETI inside a service routine, with two entries in use. -/
theorem exec_reti_ok {s : State} (hi : s.inIsr = true) (h : 2 ≤ s.sp.val) :
    exec .reti s = .next { s with
      x := s.restoreShadow.x
      sp := ⟨s.sp.val - 2, by omega⟩
      inIsr := false
      pc := (s.hs[s.sp.val - 2]).setWidth 16 } := by
  simp only [exec, execReti, returnFromInterrupt_ok s hi h, finish_ok]

/-- RETI outside a service routine. -/
theorem exec_reti_outside {s : State} (hi : s.inIsr = false) : exec .reti s = .fault .retiOutsideIsr := by
  simp only [exec, execReti, returnFromInterrupt_outside s hi, finish_error]

/-- RETI inside a service routine, with fewer than two entries in use. -/
theorem exec_reti_short {s : State} (hi : s.inIsr = true) (h : s.sp.val < 2) : exec .reti s = .fault .stackUnderflow := by
  simp only [exec, execReti, returnFromInterrupt_short s hi h, finish_error]

/-! ## What instructions leave of DM, the stack, the interrupt state and the ports -/

/-- Settles O56: no instruction but ST writes DM, and ST writes one word, or none at a port. -/
theorem dataMemoryFrame : Obligations.DataMemoryFrame := by
  intro i s t h a ha
  cases exec_effect h with
  | plain _ ht => exact congrArg (Memory.read · a) (congrArg State.dm ht :)
  | ld ht => exact congrArg (Memory.read · a) ((congrArg State.dm ht).trans (memRead_dm_eq _ s))
  | @st ri m ht =>
    rw [ht, State.advance_eq, State.jump_dm]
    obtain ⟨-, e⟩ | ⟨hio, e⟩ := memWrite_cases (effAddr m s) (s.reg ri) s
    · rw [e]
    · have other : a ≠ (effAddr m s).toNat := (ha ri m rfl).resolve_right ((isIo_false_iff _).1 hio)
      rw [e]
      exact Memory.read_write_other s.dm _ other.symm
  | push _ ht | pop _ ht | call _ ht | ret _ ht | reti _ _ ht => exact congrArg (Memory.read · a) (congrArg State.dm ht :)

/-- Settles O57: the pushes write at the depth and above, and the pops write no entry. -/
theorem stackFrame : Obligations.StackFrame := by
  intro i s t h
  have unchanged : t.hs = s.hs → ∀ k : Nat, k < s.sp.val → k < t.sp.val → t.hs[k]? = s.hs[k]? := fun e _ _ _ => by rw [e]
  cases exec_effect h with
  | plain _ ht =>
    have hs : t.hs = s.hs := (congrArg State.hs ht :)
    exact ⟨fun _ _ _ _ _ => ⟨hs, (congrArg State.sp ht :)⟩, unchanged hs⟩
  | ld ht =>
    rw [ld_frame] at ht
    have hs : t.hs = s.hs := (congrArg State.hs ht :)
    exact ⟨fun _ _ _ _ _ => ⟨hs, (congrArg State.sp ht :)⟩, unchanged hs⟩
  | st ht =>
    rw [st_frame] at ht
    have hs : t.hs = s.hs := (congrArg State.hs ht :)
    exact ⟨fun _ _ _ _ _ => ⟨hs, (congrArg State.sp ht :)⟩, unchanged hs⟩
  | @push src h16 ht =>
    refine ⟨fun hi => absurd rfl (hi src), fun k hk _ => ?_⟩
    rw [ht]
    exact Vector.getElem?_set_ne h16 (by omega)
  | @pop ri _ ht => exact ⟨fun _ hi => absurd rfl (hi ri), unchanged (congrArg State.hs ht :)⟩
  | @call m h14 ht =>
    refine ⟨fun _ _ hi => absurd rfl (hi m), fun k hk _ => ?_⟩
    rw [ht, stack_push_push_get? h14, if_neg (by omega), if_neg (by omega)]
  | ret _ ht => exact ⟨fun _ _ _ hi => absurd rfl hi, unchanged (congrArg State.hs ht :)⟩
  | reti _ _ ht => exact ⟨fun _ _ _ _ hi => absurd rfl hi, unchanged (congrArg State.hs ht :)⟩

/-- Settles O58: the shadow file, PM and the queued levels stand in no instruction's effect, and `in_isr` in RETI's alone. -/
theorem interruptStateFrame : Obligations.InterruptStateFrame := by
  intro i s t h
  cases exec_effect h with
  | reti _ _ ht =>
    exact ⟨(congrArg State.sh ht :), fun hi => absurd rfl hi, (congrArg State.pm ht :), (congrArg State.irqIn ht :)⟩
  | ld ht =>
    rw [ld_frame] at ht
    exact ⟨(congrArg State.sh ht :), fun _ => (congrArg State.inIsr ht :), (congrArg State.pm ht :),
      (congrArg State.irqIn ht :)⟩
  | st ht =>
    rw [st_frame] at ht
    exact ⟨(congrArg State.sh ht :), fun _ => (congrArg State.inIsr ht :), (congrArg State.pm ht :),
      (congrArg State.irqIn ht :)⟩
  | plain _ ht | push _ ht | pop _ ht | call _ ht | ret _ ht =>
    exact ⟨(congrArg State.sh ht :), fun _ => (congrArg State.inIsr ht :), (congrArg State.pm ht :),
      (congrArg State.irqIn ht :)⟩

/-- The port read of LD is recorded once, with the word that goes to the register (R58). -/
theorem memRead_port_event {a : Addr} {s : State} (h : isIo a = true) :
    (memRead a s).2.events = s.events ++ [.read a (memRead a s).1] := by
  obtain ⟨hio, -⟩ | ⟨-, v, rest, -, e⟩ | ⟨-, -, e⟩ := memRead_cases a s
  · rw [h] at hio; cases hio
  · rw [e]
  · rw [e]

/-- Settles O59: only a read or a write of data space reaches the ports, and at a port it is one access. -/
theorem portFrame : Obligations.PortFrame := by
  intro i s t h
  cases exec_effect h with
  | @plain i hi ht =>
    refine ⟨fun _ _ => ⟨(congrArg State.events ht :), (congrArg State.portIn ht :), (congrArg State.draws ht :)⟩, ?_, ?_⟩
    · rintro ri m rfl; cases hi
    · rintro ri m rfl; cases hi
  | @ld ri m ht =>
    refine ⟨fun hld _ => ?_, ?_, by rintro _ _ ⟨⟩⟩
    · rw [ht, memRead_dm ((isIo_false_iff _).2 (hld ri m rfl))]
      exact ⟨rfl, rfl, rfl⟩
    · rintro _ _ ⟨⟩ hport
      rw [ht, State.advance_eq, State.reg_jump, State.reg_setReg_same]
      exact memRead_port_event ((isIo_iff_isPort _).2 hport)
  | @st ri m ht =>
    refine ⟨fun _ hst => ?_, (by rintro _ _ ⟨⟩), ?_⟩
    · rw [ht, memWrite_dm _ ((isIo_false_iff _).2 (hst ri m rfl))]
      exact ⟨rfl, rfl, rfl⟩
    · rintro _ _ ⟨⟩ hport
      rw [ht, memWrite_port _ ((isIo_iff_isPort _).2 hport)]
      exact ⟨rfl, rfl, rfl⟩
  | push _ ht | pop _ ht | call _ ht | ret _ ht | reti _ _ ht =>
    exact ⟨fun _ _ => ⟨(congrArg State.events ht :), (congrArg State.portIn ht :), (congrArg State.draws ht :)⟩,
      by rintro _ _ ⟨⟩, by rintro _ _ ⟨⟩⟩

/-- An outcome with a next state is no fault and no refusal. -/
theorem next_only {o : Result} {t : State} {P : Fault → Prop} (h : o = .next t) :
    (∀ f, o = .fault f → P f) ∧ ∀ r, o ≠ .refused r := by
  rw [h]
  exact ⟨nofun, nofun⟩

/-- An outcome with a fault has that fault alone, and is no refusal. -/
theorem fault_only {o : Result} {f₀ : Fault} {P : Fault → Prop} (h : o = .fault f₀) (hP : P f₀) :
    (∀ f, o = .fault f → P f) ∧ ∀ r, o ≠ .refused r := by
  rw [h]
  exact ⟨fun f hf => Host.Outcome.fault.inj hf ▸ hP, nofun⟩

/-- What an instruction that stops stops on (R225): nothing but the stack's limits and RETI outside a service routine. -/
theorem exec_stops (i : Instr) (s : State) :
    (∀ f, exec i s = .fault f →
      (f = .stackOverflow ∧ ((∃ src, i = .push src ∧ s.sp.val = 16) ∨ ∃ m, i = .call m ∧ 15 ≤ s.sp.val)) ∨
      (f = .stackUnderflow ∧ ((∃ ri, i = .pop ri ∧ s.sp.val = 0) ∨ ((i = .ret ∨ i = .reti) ∧ s.sp.val < 2))) ∨
      (f = .retiOutsideIsr ∧ i = .reti ∧ s.inIsr = false)) ∧ ∀ r, exec i s ≠ .refused r := by
  cases hi : touchesMemoryOrStack i with
  | false => exact (exec_plain i s hi).elim fun _ h => next_only h.1
  | true =>
    cases i with
    | ld ri m => exact next_only (execLd_eq ri m s)
    | st ri m => exact next_only (execSt_eq ri m s)
    | push src =>
      by_cases h : s.sp.val < 16
      · exact next_only (exec_push_ok src h)
      · exact fault_only (exec_push_full src h) (.inl ⟨rfl, .inl ⟨src, rfl, by omega⟩⟩)
    | pop ri =>
      by_cases h : 0 < s.sp.val
      · exact next_only (exec_pop_ok ri h)
      · exact fault_only (exec_pop_empty ri h) (.inr (.inl ⟨rfl, .inl ⟨ri, rfl, by omega⟩⟩))
    | call m =>
      by_cases h : s.sp.val + 2 ≤ 16
      · exact next_only (exec_call_ok m h)
      · exact fault_only (exec_call_full m (by omega)) (.inl ⟨rfl, .inr ⟨m, rfl, by omega⟩⟩)
    | ret =>
      by_cases h : 2 ≤ s.sp.val
      · exact next_only (exec_ret_ok h)
      · exact fault_only (exec_ret_short (by omega)) (.inr (.inl ⟨rfl, .inr ⟨.inl rfl, by omega⟩⟩))
    | reti =>
      cases hr : s.inIsr with
      | false => exact fault_only (exec_reti_outside hr) (.inr (.inr ⟨rfl, rfl, rfl⟩))
      | true =>
        by_cases h : 2 ≤ s.sp.val
        · exact next_only (exec_reti_ok hr h)
        · exact fault_only (exec_reti_short hr (by omega)) (.inr (.inl ⟨rfl, .inr ⟨.inr rfl, by omega⟩⟩))
    | _ => cases hi

/-- Settles O60: the stops instruction by instruction; LD, ST and the instructions on registers and pc alone complete. -/
theorem instructionsStopOnlyOnTheStack : Obligations.InstructionsStopOnlyOnTheStack := by
  intro i s
  obtain ⟨faults, refusals⟩ := exec_stops i s
  refine ⟨faults, refusals, fun hpush hpop hcall hret hreti => ?_⟩
  cases hi : touchesMemoryOrStack i with
  | false => exact (exec_plain i s hi).imp fun _ h => h.1
  | true =>
    cases i with
    | ld ri m => exact ⟨_, execLd_eq ri m s⟩
    | st ri m => exact ⟨_, execSt_eq ri m s⟩
    | push src => exact absurd rfl (hpush src)
    | pop ri => exact absurd rfl (hpop ri)
    | call m => exact absurd rfl (hcall m)
    | ret => exact absurd rfl hret
    | reti => exact absurd rfl hreti
    | _ => cases hi

/-- A write-back to another register than R0 keeps the bits of SR that its class does not write (R27). -/
theorem writeBack_advance_sr (s : State) (cls : FlagClass) {ri : Reg} (r : Word) (f : FlagValues) {k : Nat} (hri : ri ≠ 0)
    (hk : (config.flagPolicy cls).getLsbD k = false) :
    ((s.writeBack cls ri r f).advance.reg 0).getLsbD k = (s.reg 0).getLsbD k := by
  obtain ⟨-, -, -, bits⟩ := writeBack_writesBack s cls ri r f
  rw [bits hri, hk]
  rfl

/-- A place at which the word of 32 ones has no one lies above the word. -/
theorem ones_bit_false {k : Nat} (h : (0xFFFFFFFF : Word).getLsbD k = false) : 32 ≤ k := by
  have ones : (BitVec.allOnes 32).getLsbD k = false := h
  rw [BitVec.getLsbD_allOnes] at ones
  simpa using ones

/-- Settles O55: each class's mask is the instruction's row of R27, and the other instructions write no bit of SR. -/
theorem statusFrame : Obligations.StatusFrame := by
  intro i s t h hd k hk
  have of_next : ∀ {u}, exec i s = .next u → (u.reg 0).getLsbD k = (s.reg 0).getLsbD k →
      (t.reg 0).getLsbD k = (s.reg 0).getLsbD k := by
    intro u hu hr
    rwa [Host.Outcome.next.inj (h.symm.trans hu)]
  have of_sr : ∀ {u : State}, u.reg 0 = s.reg 0 → (u.reg 0).getLsbD k = (s.reg 0).getLsbD k := fun e => by rw [e]
  have whole : sideBits i = 0xFFFFFFFF → (t.reg 0).getLsbD k = (s.reg 0).getLsbD k := by
    intro e
    have high : 32 ≤ k := ones_bit_false (e ▸ hk)
    rw [BitVec.getLsbD_of_ge _ _ high, BitVec.getLsbD_of_ge _ _ high]
  have ne_of_dest : ∀ {ri : Reg}, destOf i = some ri → ri ≠ 0 := by
    rintro ri hri rfl
    exact hd hri
  cases i with
  | ld ri m =>
    refine of_next (execLd_eq ri m s) (of_sr ?_)
    rw [State.advance_eq, State.reg_jump, State.reg_setReg_ne _ _ (ne_of_dest rfl), memRead_reg]
  | st ri m => exact of_next (execSt_eq ri m s) (of_sr (memWrite_reg _ _ s 0))
  | cpy ri src => exact of_next (execCpy_eq ri src s) (of_sr (State.reg_setReg_ne s _ (ne_of_dest rfl)))
  | push src =>
    obtain ⟨_, rfl⟩ := execPush_cases h
    rfl
  | pop ri =>
    obtain ⟨_, rfl⟩ := execPop_cases h
    exact of_sr (State.reg_setReg_ne s _ (ne_of_dest rfl))
  | jmp m | jc m | jn m | jv m | jz m | jnc m | jnn m | jnv m | jnz m | jge m | jl m =>
    exact of_next (jumpIf_eq _ m s Iff.rfl) rfl
  | call m =>
    obtain ⟨_, rfl⟩ := execCall_cases h
    rfl
  | ret | reti => exact whole rfl
  | add ri rj b => exact of_next (execAdd_eq ri rj b s) (writeBack_advance_sr s _ _ _ (ne_of_dest rfl) hk)
  | sub ri rj b => exact of_next (execSub_eq ri rj b s) (writeBack_advance_sr s _ _ _ (ne_of_dest rfl) hk)
  | cmp rj b =>
    exact of_next (execCmp_eq rj b s) ((writeFlags_bit s .compare _ k).trans (if_neg (Bool.eq_false_iff.1 hk)))
  | not ri rj | and ri rj b | bic ri rj b | or ri rj b | xor ri rj b =>
    exact of_next (logical_eq ri _ s) (writeBack_advance_sr s _ _ _ (ne_of_dest rfl) hk)
  | srl ri rj n | sll ri rj n | sra ri rj n | rtr ri rj n | rtl ri rj n | rrc ri rj n | rlc ri rj n =>
    exact of_next (shiftBy_eq _ _ ri rj n s) (writeBack_advance_sr s _ _ _ (ne_of_dest rfl) hk)
  | fa ri rj b | fs ri rj b | fm ri rj b | fd ri rj b | fti ri rj | itf ri rj =>
    exact of_next (fpuResult_eq ri _ s) (of_sr (State.reg_setReg_ne s _ (ne_of_dest rfl)))

end Sys2Proof.Machine
end

section
namespace Sys2Proof.Machine

/-! ## Acceptance in terms of the requests (R214, decision D36) -/

/-- Source `n` is enabled and requested, in the terms of the claims and of the machine. -/
theorem enabled_requested_eq (s : State) (n : Fin 8) :
    (srIE s.sr n && s.irq.getLsbD n.val) = ((s.reg 0).getLsbD (6 + n.val) && requested s n) := by
  rw [irq_eq_requested]
  rfl

/-- With `in_isr` set, or no source enabled and requested, nothing is taken. -/
theorem taken_of_quiet {s : State}
    (h : s.inIsr = true ∨ ∀ n : Fin 8, ((s.reg 0).getLsbD (6 + n.val) && requested s n) = false) : s.taken = none :=
  (taken_none_iff s).2 (h.imp_right fun h n => (enabled_requested_eq s n).trans (h n))

/-- The smallest source that is enabled and requested is taken, outside a service routine. -/
theorem taken_of_smallest {s : State} {n : Fin 8} (hi : s.inIsr = false)
    (hn : ((s.reg 0).getLsbD (6 + n.val) && requested s n) = true)
    (hmin : ∀ m : Fin 8, m < n → ((s.reg 0).getLsbD (6 + m.val) && requested s m) = false) : s.taken = some n := by
  simp only [← enabled_requested_eq] at hn hmin
  cases ht : s.taken with
  | none =>
    obtain h | h := (taken_none_iff s).1 ht
    · rw [hi] at h; cases h
    · rw [h n] at hn; cases hn
  | some k =>
    obtain ⟨-, hk, kmin⟩ := taken_cases ht
    have not_lt : ¬k < n := fun lt => by rw [hmin k lt] at hk; cases hk
    have not_gt : ¬n < k := fun lt => by rw [kmin n lt] at hn; cases hn
    rw [le_antisymm (Fin.not_lt.1 not_gt) (Fin.not_lt.1 not_lt)]

/-- Settles O6: nothing is taken, and the fetched word decodes to `i`. -/
theorem stepRunsDecodedInstruction : Obligations.StepRunsDecodedInstruction :=
  ⟨sampled_eq, fun _ _ _ quiet hw hd => step_exec (taken_of_quiet quiet) (fetchDecode_ok hw hd)⟩

/-- Settles O7: nothing is taken, and the fetch fails. -/
theorem stepFaultsWithoutInstruction : Obligations.StepFaultsWithoutInstruction := fun _ quiet =>
  ⟨fun _ _ hw hd => step_noInstruction (taken_of_quiet quiet) (fetchDecode_illegal hw hd),
    fun hw => step_noInstruction (taken_of_quiet quiet) (fetchDecode_unwritten hw)⟩

/-- Settles O9: the taken source in terms of the requests, and the step of each case. -/
theorem acceptanceTakesSmallest : Obligations.AcceptanceTakesSmallest := by
  intro s
  refine ⟨fun levels rest hs n => ⟨?_, irq_eq_requested s n⟩, fun n hi hn hmin => step_taken (taken_of_smallest hi hn hmin),
    fun quiet => ⟨fun i hf => ?_, fun f hf => ?_⟩⟩
  · simp [requested, levelsAt, hs]
  · exact step_exec (taken_of_quiet quiet) (fetchDecode_sampled s ▸ hf)
  · exact step_noInstruction (taken_of_quiet quiet) (fetchDecode_sampled s ▸ hf)

/-- A taken source is one of the six that exist (R35, R211, decision D36). -/
theorem taken_lt_six {s : State} {n : Fin 8} (h : s.taken = some n) : n.val < 6 := by
  obtain ⟨-, hn, -⟩ := taken_cases h
  by_contra hge
  rw [irq_high s n (by omega), Bool.and_false] at hn
  cases hn

/-- Settles O12: the lines of sources 6 and 7 are low, so with the six others disabled nothing is taken. -/
theorem unusedSourcesNeverTaken : Obligations.UnusedSourcesNeverTaken := by
  refine ⟨fun _ _ => taken_lt_six, fun s i disabled hf => step_exec ?_ hf⟩
  refine (taken_none_iff s).2 (.inr fun n => ?_)
  by_cases hn : n.val < 6
  · rw [show srIE s.sr n = false from disabled n hn, Bool.false_and]
  · rw [irq_high s n (by omega), Bool.and_false]

/-! ## Interrupt entry and the return (R216 – R219) -/

/-- The shadow file after the copy, entry by entry (R216). -/
theorem State.saveShadow_sh_get? (s : State) {k : Nat} (h : k < 24) : s.saveShadow.sh[k]? = s.x[k]? := by
  rw [Vector.getElem?_eq_getElem h, Vector.getElem?_eq_getElem (by omega), State.saveShadow_sh_get s k h]

/-- R0 … R23 after the restore (R146). -/
theorem State.restoreShadow_x_low (s : State) {k : Nat} (h : k < 24) : s.restoreShadow.x[k]? = s.sh[k]? := by
  rw [Vector.getElem?_eq_getElem h, Vector.getElem?_eq_getElem (by omega)]
  exact congrArg some ((State.restoreShadow_reg s ⟨k, by omega⟩).trans (dif_pos h))

/-- R24 … R31 after the restore (R22, R146). -/
theorem State.restoreShadow_x_high (s : State) {k : Nat} (h : 24 ≤ k) : s.restoreShadow.x[k]? = s.x[k]? := by
  by_cases h32 : k < 32
  · rw [Vector.getElem?_eq_getElem h32, Vector.getElem?_eq_getElem h32]
    exact congrArg some ((State.restoreShadow_reg s ⟨k, h32⟩).trans (dif_neg (by simp only; omega)))
  · rw [Vector.getElem?_eq_none (by omega), Vector.getElem?_eq_none (by omega)]

/-- A vector entry's address, after the sampling of the lines. -/
theorem vector_word_sampled (s : State) (n : Fin 8) :
    Memory.read s.sampled.pm (vectorAddr n).toNat = Memory.read s.pm (0xFFF0 + 2 * n.val) := by
  rw [vectorAddr_toNat, State.sampled_pm]

/-- Settles O10: the step is the entry of the taken source, on the sampled state. -/
theorem interruptEntrySavesAndVectors : Obligations.InterruptEntrySavesAndVectors := by
  intro s n w hi hn hmin hsp hw
  have free : s.sampled.sp.val + 2 ≤ 16 := by rw [State.sampled_sp]; omega
  have entry := enterInterrupt_ok n s.sampled free ((vector_word_sampled s n).trans hw)
  have stack := stack_push_push_get? free s.sampled.hs (s.sampled.pc.setWidth 32) s.sampled.sr
  simp only [State.sr_eq, State.sampled_sp, State.sampled_hs, State.sampled_pc, State.sampled_reg] at stack
  refine ⟨_, by rw [step_taken (taken_of_smallest hi hn hmin), entry, finish_ok], ?_, by simp, ?_, ?_, fun k hk => ?_,
    fun k hk => ?_⟩
  · simp only [State.sampled_x, State.sampled_dm, State.sampled_pm, State.sampled_portIn, State.sampled_events,
      State.sampled_irqIn, State.sampled_draws]
  · simp [State.sr_eq]
  · simp [State.sr_eq]
  · simp only [State.sampled_sp, State.sampled_hs, State.sampled_pc, State.sr_eq, State.sampled_reg]
    rw [stack, if_neg (by omega), if_neg (by omega)]
  · exact (State.saveShadow_sh_get? s.sampled hk).trans (by rw [State.sampled_x])

/-- Settles O11: with the source taken, the entry stops for want of free entries or of the vector word. -/
theorem interruptEntryFaults : Obligations.InterruptEntryFaults := by
  intro s n hi hn hmin
  have taken := taken_of_smallest hi hn hmin
  refine ⟨fun hsp => ?_, fun hsp hw => ?_⟩
  · have full : 16 < s.sampled.sp.val + 2 := by rw [State.sampled_sp]; omega
    rw [step_taken taken, enterInterrupt_full n _ full, finish_error]
  · have free : s.sampled.sp.val + 2 ≤ 16 := by rw [State.sampled_sp]; omega
    have address : vectorAddr n = BitVec.ofNat 16 (0xFFF0 + 2 * n.val) := by rw [← vectorAddr_toNat]; simp
    rw [step_taken taken, enterInterrupt_noVector n _ free ((vector_word_sampled s n).trans hw), finish_error, address]

/-- Settles O13: the entry left pc below SR on the stack and R0 … R23 in the shadow file, where RETI reads them. -/
theorem interruptThenReti : Obligations.InterruptThenReti := by
  intro s t t' n _ hentry hhs hsp hsh hisr
  obtain ⟨w, h14, -, rfl⟩ := enterInterrupt_cases hentry
  have depth : t'.sp.val = s.sp.val + 2 := congrArg Fin.val hsp
  have address : t'.hs[t'.sp.val - 2] = s.pc.setWidth 32 := by
    have entry : t'.hs[s.sp.val]? = some (s.pc.setWidth 32) :=
      (hhs s.sp.val (Nat.lt_add_of_pos_right two_pos)).trans (by rw [stack_push_push_get? h14, if_pos rfl])
    rw [show s.sp.val = t'.sp.val - 2 by omega, Vector.getElem?_eq_getElem (by omega)] at entry
    exact Option.some.inj entry
  refine ⟨_, exec_reti_ok hisr (by omega), ?_, ?_, rfl, fun k hk => ?_, fun k hk => ?_⟩
  · rw [address]; simp
  · exact Fin.ext (by show t'.sp.val - 2 = s.sp.val; omega)
  · rw [State.restoreShadow_x_low t' hk, hsh]
    exact State.saveShadow_sh_get? s hk
  · exact State.restoreShadow_x_high t' hk

end Sys2Proof.Machine
end

section
namespace Sys2Proof.Machine

/-! ## The end of a run (R256, decision D31) -/

/-- At an end no interrupt is taken. -/
theorem taken_atEnd {s : State} (h : AtEnd s) : s.taken = none := by
  obtain ⟨-, disabled | quiet⟩ := h
  · exact taken_of_quiet (.inr fun n => by rw [disabled n, Bool.false_and])
  · exact taken_noRequest (quiet 1 0 one_pos)

/-- With no request at the next boundaries there is none at those after the coming one. -/
theorem noRequestFor_sampled {n : Nat} {s : State} (h : NoRequestFor (n + 1) s) : NoRequestFor n s.sampled := by
  intro k hk
  rw [levelsAt_sampled]
  exact h (k + 1) (by omega)

/-- Sampling keeps an end. -/
theorem atEnd_sampled {s : State} (h : AtEnd s) : AtEnd s.sampled := by
  obtain ⟨self, interrupts⟩ := h
  refine ⟨atSelfJump_sampled self, interrupts.imp (fun disabled n => ?_) fun quiet n => noRequestFor_sampled (quiet (n + 1))⟩
  rw [State.sampled_reg]
  exact disabled n

/-- Sampling `n` more times after the coming boundary is sampling `n + 1` times (R35). -/
theorem sampled_drop (n : Nat) (s : State) :
    { s.sampled with irqIn := s.sampled.irqIn.drop n, draws := s.sampled.draws + (n - s.sampled.irqIn.length) } =
      { s with irqIn := s.irqIn.drop (n + 1), draws := s.draws + (n + 1 - s.irqIn.length) } := by
  rw [sampled_eq]
  cases h : s.irqIn with
  | nil => simp [Nat.add_assoc, Nat.add_comm 1 n]
  | cons levels rest => simp

/-- At the jump to itself, without a request, a run changes nothing but the sampling of the lines. -/
theorem run_selfJump {n : Nat} {s : State} (self : AtSelfJump s) (quiet : NoRequestFor n s) :
    Host.Core.run Sys2Proof.core n s =
      .next { s with irqIn := s.irqIn.drop n, draws := s.draws + (n - s.irqIn.length) } := by
  induction n generalizing s with
  | zero => simp
  | succ n ih =>
    rw [run_step (step_selfJump self (taken_noRequest (quiet 0 n.succ_pos))),
      ih (atSelfJump_sampled self) (noRequestFor_sampled quiet), sampled_drop]

/-- A first arrival comes after no other one. -/
theorem not_lt_of_endsAt {n m : Nat} {s t u : State} (ht : EndsAt n s t) (hu : EndsAt m s u) : ¬n < m := by
  obtain ⟨run, atEnd, -⟩ := ht
  obtain ⟨-, -, first⟩ := hu
  exact fun lt => first n lt t run atEnd

/-- Settles O8: the step at the jump to itself, its iteration, and the order of two first arrivals. -/
theorem endOfRunLoops : Obligations.EndOfRunLoops := by
  intro s
  refine ⟨fun h => ⟨step_selfJump h.1 (taken_atEnd h), atEnd_sampled h⟩, fun _ => run_selfJump, fun n m t u ht hu => ?_⟩
  obtain rfl : n = m := le_antisymm (not_lt.1 (not_lt_of_endsAt hu ht)) (not_lt.1 (not_lt_of_endsAt ht hu))
  obtain ⟨runT, -, -⟩ := ht
  obtain ⟨runU, -, -⟩ := hu
  exact ⟨rfl, Host.Outcome.next.inj (runT.symm.trans runU)⟩

end Sys2Proof.Machine
end

section
namespace Sys2Proof.Machine

/-! ## Operands (R60, R87, R159, R170) -/

/-- Settles O20: each row of the table, as a sum of 16-bit words. -/
theorem effectiveAddressTable : Obligations.EffectiveAddressTable := by
  intro r ctl addr16 s
  refine ⟨fun hr hc => ?_, fun hr hc => ?_, fun hr hc => ?_, fun hr hc => ?_⟩ <;> simp [addrModeOf, hr, hc, effAddr]

/-- The low six bits of a word, as a field and as a remainder (R170, decision D13). -/
theorem toNat_low_six (w : Word) : w.toNat % 2 ^ 6 = (w.extractLsb' 0 6).toNat := by
  rw [BitVec.extractLsb'_toNat, Nat.shiftRight_zero]

/-- Settles O21: the operands' definitions, with the configured extension and count width. -/
theorem operandValues : Obligations.OperandValues := by
  intro s
  refine ⟨fun _ => rfl, fun c => ?_, fun _ => rfl, fun r => toNat_low_six (s.reg r)⟩
  exact BitVec.toInt_signExtend_of_le (by decide)

/-! ## LD and ST (R110, R111) -/

/-- LD of a word of DM. -/
theorem exec_ld_dm (ri : Reg) (m : AddrMode) {s : State} (h : ¬IsPort (effAddr m s).toNat) :
    exec (.ld ri m) s = .next { s with x := s.x.set ri.val (s.dmWord (effAddr m s)), pc := s.pc + 1 } := by
  simp only [exec, execLd_eq, memRead_dm ((isIo_false_iff _).2 h)]
  rfl

/-- The value that LD of a word of DM leaves in its register. -/
theorem exec_ld_dm_reg (ri : Reg) (m : AddrMode) {s : State} (h : ¬IsPort (effAddr m s).toNat) :
    ∃ t, exec (.ld ri m) s = .next t ∧ t.reg ri = s.dmWord (effAddr m s) :=
  ⟨_, exec_ld_dm ri m h, State.reg_setReg_same s ri _⟩

/-- Settles O22: the three cases of a read of data space. -/
theorem loadResult : Obligations.LoadResult := by
  intro ri m s
  refine ⟨fun v hport hv => ?_, fun v rest hport hin => ?_, fun hport hin => ?_⟩
  · rw [exec_ld_dm ri m hport, State.dmWord, hv, Option.getD_some]
  · simp only [exec, execLd_eq, memRead_port ((isIo_iff_isPort _).2 hport) hin]
    rfl
  · refine ⟨Config.freePortWord s.draws, ?_⟩
    simp only [exec, execLd_eq, memRead, (isIo_iff_isPort _).2 hport, if_true, ioRead, hin]
    rfl

/-- Settles O23: an unlisted word of DM reads as its free value. -/
theorem loadOfUnwrittenWord : Obligations.LoadOfUnwrittenWord := by
  intro ri m s hport hv
  rw [exec_ld_dm ri m hport, State.dmWord, hv, Option.getD_none]

/-- ST to a word of DM. -/
theorem exec_st_dm (ri : Reg) (m : AddrMode) {s : State} (h : ¬IsPort (effAddr m s).toNat) :
    exec (.st ri m) s =
      .next { s with dm := Memory.write s.dm (effAddr m s).toNat (s.reg ri), pc := s.pc + 1 } := by
  simp only [exec, execSt_eq, memWrite_dm _ ((isIo_false_iff _).2 h)]
  rfl

/-- Settles O24: the two cases of a write of data space. -/
theorem storeResult : Obligations.StoreResult := by
  intro ri m s
  refine ⟨fun hport => ?_, fun hport => ⟨_, exec_st_dm ri m hport, rfl, Memory.read_write_same _ _ _,
    fun a ha => Memory.read_write_other _ _ ha.symm⟩⟩
  simp only [exec, execSt_eq, memWrite_port _ ((isIo_iff_isPort _).2 hport)]
  rfl

/-- Settles O25: the written word is read back, and every other word as before. -/
theorem storeThenLoad : Obligations.StoreThenLoad := by
  intro ri m s hport
  refine ⟨_, exec_st_dm ri m hport, fun rk m' same => ?_, fun rk a ha hport' => ?_⟩
  · obtain ⟨u, hu, hr⟩ := exec_ld_dm_reg rk m' (same ▸ hport)
    refine ⟨u, hu, hr.trans ?_⟩
    rw [same, State.dmWord, Memory.read_write_same, Option.getD_some]
  · obtain ⟨u, hu, hru⟩ := exec_ld_dm_reg rk (.absolute a) (s := { s with
      dm := Memory.write s.dm (effAddr m s).toNat (s.reg ri), pc := s.pc + 1 }) hport'
    obtain ⟨v, hv, hrv⟩ := exec_ld_dm_reg rk (.absolute a) (s := s) hport'
    have other : (effAddr m s).toNat ≠ a.toNat := fun e => ha (BitVec.eq_of_toNat_eq e.symm)
    refine ⟨u, v, hu, hv, ?_⟩
    rw [hru, hrv]
    exact congrArg (Option.getD · (Config.dmPowerOn a)) (Memory.read_write_other s.dm _ other)

/-! ## CPY, PUSH and POP (R120 – R122) -/

/-- Settles O26: a write-back without flags, and the group of opcode 2. -/
theorem copyResult : Obligations.CopyResult :=
  fun ri src s => ⟨execCpy_eq ri src s, fun _ hw => decode_of_opcode .cpy hw⟩

/-- Settles O27: the register keeps its value. -/
theorem copyToItself : Obligations.CopyToItself := by
  intro r s
  have same : s.x.set r.val (s.reg r) = s.x := Vector.set_getElem_self _
  rw [exec, execCpy_eq, sourceValue, same]

/-- Settles O28: the stack's push, and the group of opcode 3. -/
theorem pushResult : Obligations.PushResult := by
  intro src s
  refine ⟨fun h => ⟨_, exec_push_ok src h, rfl, rfl, Vector.getElem?_set_self h, fun k hk => ?_⟩,
    fun h => exec_push_full src (by omega), fun _ hw => decode_of_opcode .push hw⟩
  exact Vector.getElem?_set_ne h hk.symm

/-- Settles O29: the stack's pop, and the group of opcode 4. -/
theorem popResult : Obligations.PopResult := by
  intro ri s
  refine ⟨fun h => ⟨_, _, exec_pop_ok ri h, Vector.getElem?_eq_getElem (by omega), rfl, Nat.sub_add_cancel h⟩,
    fun h => exec_pop_empty ri (by omega), fun _ hw => decode_of_opcode .pop hw⟩

/-- Settles O30: the entry that PUSH wrote is the top one. -/
theorem pushThenPop : Obligations.PushThenPop := by
  intro src ri s h
  refine ⟨_, _, exec_push_ok src h, exec_pop_ok ri (Nat.succ_pos _), ?_, rfl, fun q hq => State.reg_setReg_ne s _ hq.symm⟩
  exact (State.reg_setReg_same s ri _).trans (Vector.getElem_set_self h)

end Sys2Proof.Machine
end

section
namespace Sys2Proof.Machine

/-! ## Jumps (R131 – R142) -/

/-- A word of group JMP (R91). -/
theorem decode_jump {w : Word} (h : w.extractLsb' 27 5 = 5#5) : decode w = decodeJump w := decode_of_opcode .jmp h

/-- Settles O31: the condition always holds. -/
theorem jumpAlways : Obligations.JumpAlways := by
  intro m s
  refine ⟨?_, fun w hop hcc => ?_⟩
  · rw [exec, execJmp, jumpIf_eq .always m s (p := True) (by simp [condHolds]), if_pos trivial]
  · have selector : ccField w = 0b0000#4 := hcc
    rw [decode_jump hop, decodeJump, selector]
    rfl

/-- A row of the Jump Condition table: a jump on one bit of SR, and the selector of its word. -/
theorem flagJump_row {jump : AddrMode → Instr} {cond : Cond} {k : Nat} {v : Bool} {cc : BitVec 4}
    (hexec : ∀ m s, exec (jump m) s = jumpIf cond m s) (hcond : ∀ sr, condHolds cond sr = true ↔ sr.getLsbD k = v)
    (hdecode : ∀ w, ccField w = cc → decodeJump w = .ok (jump (modeJ w))) (m : AddrMode) (s : State) :
    exec (jump m) s = .next { s with pc := if (s.reg 0).getLsbD k = v then effAddr m s else s.pc + 1 } ∧
      ∀ w : Word, w.extractLsb' 27 5 = 5#5 → w.extractLsb' 18 4 = cc →
        decode w = .ok (jump (addrModeOf (w.extractLsb' 22 5).toFin (w.extractLsb' 16 1) (w.extractLsb' 0 16))) :=
  ⟨(hexec m s).trans (jumpIf_eq cond m s (hcond _)), fun w hop hcc => (decode_jump hop).trans (hdecode w hcc)⟩

/-- Settles O32: row by row, the condition is a bit of SR, and the selector is that of the row. -/
theorem flagJumps : Obligations.FlagJumps := by
  unfold Obligations.FlagJumps
  simp only [List.forall_mem_cons]
  have clear : ∀ b : Bool, (!b) = true ↔ b = false := fun b => iff_of_eq (Bool.not_eq_true' b)
  exact
    ⟨flagJump_row (cond := .c) (fun _ _ => rfl) (fun _ => Iff.rfl) (fun w h => by rw [decodeJump, h]; rfl),
      flagJump_row (cond := .n) (fun _ _ => rfl) (fun _ => Iff.rfl) (fun w h => by rw [decodeJump, h]; rfl),
      flagJump_row (cond := .v) (fun _ _ => rfl) (fun _ => Iff.rfl) (fun w h => by rw [decodeJump, h]; rfl),
      flagJump_row (cond := .z) (fun _ _ => rfl) (fun _ => Iff.rfl) (fun w h => by rw [decodeJump, h]; rfl),
      flagJump_row (cond := .nc) (fun _ _ => rfl) (fun _ => clear _) (fun w h => by rw [decodeJump, h]; rfl),
      flagJump_row (cond := .nn) (fun _ _ => rfl) (fun _ => clear _) (fun w h => by rw [decodeJump, h]; rfl),
      flagJump_row (cond := .nv) (fun _ _ => rfl) (fun _ => clear _) (fun w h => by rw [decodeJump, h]; rfl),
      flagJump_row (cond := .nz) (fun _ _ => rfl) (fun _ => clear _) (fun w h => by rw [decodeJump, h]; rfl),
      fun _ h => absurd h List.not_mem_nil⟩

/-- Settles O33: the conditions are bits 4 and 5 of SR. -/
theorem orderJumps : Obligations.OrderJumps := fun m s => ⟨jumpIf_eq .ge m s Iff.rfl, jumpIf_eq .l m s Iff.rfl⟩

/-! ## CALL, RET and RETI (R144 – R146) -/

/-- Settles O34: the two pushes and the jump. -/
theorem callResult : Obligations.CallResult := by
  intro m s
  refine ⟨fun h => ?_, fun h => exec_call_full m (by omega)⟩
  have free : s.sp.val + 2 ≤ 16 := by omega
  have stack := stack_push_push_get? free s.hs ((s.pc + 1).setWidth 32) (s.reg 0)
  refine ⟨_, exec_call_ok m free, rfl, rfl, ?_, ?_, fun k hk hk' => ?_⟩
  · rw [stack, if_pos rfl]
  · rw [stack, if_neg (by omega), if_pos rfl]
  · rw [stack, if_neg hk, if_neg hk']

/-- Settles O35: the two pops, and RET's words. -/
theorem retResult : Obligations.RetResult := by
  refine ⟨fun s => ⟨fun h => ?_, exec_ret_short⟩, by decide, fun w hop hctl => ⟨fun hcc => ?_, fun hcc => ?_⟩⟩
  · exact ⟨_, _, _, exec_ret_ok h, Vector.getElem?_eq_getElem (by omega), Vector.getElem?_eq_getElem (by omega), rfl,
      Nat.sub_add_cancel h⟩
  · have cc : ccField w = 0 := hcc
    have ctl : ctlField w = 0 := hctl
    rw [decode_of_opcode .ret hop, decodeGroup, decodeReturn, if_pos cc, if_pos ctl]
  · have cc : ccField w ≠ 0 := hcc
    rw [decode_of_opcode .ret hop, decodeGroup, decodeReturn, if_neg cc]

/-- Settles O36: the restore, and the two stops. -/
theorem retiResult : Obligations.RetiResult := by
  intro s
  refine ⟨fun hi h => ?_, exec_reti_outside, exec_reti_short⟩
  exact ⟨_, _, exec_reti_ok hi h, Vector.getElem?_eq_getElem (by omega), rfl, Nat.sub_add_cancel h,
    fun _ => State.restoreShadow_x_low s, fun _ => State.restoreShadow_x_high s⟩

/-- Settles O37: RET reads the two entries that CALL wrote. -/
theorem callThenRet : Obligations.CallThenRet := by
  intro m s h
  have free : s.sp.val + 2 ≤ 16 := by omega
  have stack := stack_push_push_get? free s.hs ((s.pc + 1).setWidth 32) (s.reg 0)
  refine ⟨_, exec_call_ok m free, fun t' hhs hsp => ?_⟩
  have depth : t'.sp.val = s.sp.val + 2 := congrArg Fin.val hsp
  have address : t'.hs[t'.sp.val - 2]? = some ((s.pc + 1).setWidth 32) := by
    rw [hhs _ (by show _ < s.sp.val + 2; omega), stack, if_pos (by omega)]
  have status : t'.hs[t'.sp.val - 1]? = some (s.reg 0) := by
    rw [hhs _ (by show _ < s.sp.val + 2; omega), stack, if_neg (by omega), if_pos (by omega)]
  rw [Vector.getElem?_eq_getElem (by omega)] at address status
  refine ⟨_, exec_ret_ok (by omega), ?_, ?_, ?_, fun q hq => State.reg_setReg_ne t' _ hq.symm⟩
  · rw [Option.some.inj address]; simp
  · exact (State.reg_setReg_same t' 0 _).trans (Option.some.inj status)
  · exact Fin.ext (by show t'.sp.val - 2 = s.sp.val; omega)

end Sys2Proof.Machine
end

section
namespace Sys2Proof.Machine

/-! ## The flags of the sum and the difference, in the terms of the claims (R151 – R153, R161) -/

/-- The low word of a 33-bit result, as a truncation and as a field. -/
theorem setWidth_eq_low_word (t : BitVec 33) : t.setWidth 32 = t.extractLsb' 0 32 :=
  BitVec.eq_of_toNat_eq (by rw [BitVec.toNat_setWidth, BitVec.extractLsb'_toNat, Nat.shiftRight_zero])

/-- The flag values that stand outside the mask are free. -/
theorem writesBack_congr {s t : State} {ri : Reg} {r mask : Word} {bits bits' : Nat → Bool}
    (h : WritesBack s t ri r mask bits) (hb : ∀ k, mask.getLsbD k = true → bits k = bits' k) :
    WritesBack s t ri r mask bits' := by
  obtain ⟨frame, result, others, status⟩ := h
  refine ⟨frame, result, others, fun hri k => ?_⟩
  rw [status hri k]
  cases hk : mask.getLsbD k with
  | false => rfl
  | true => exact hb k hk

/-- V of the sum: operands of like sign, and a result of the other sign. -/
theorem addFlags_v (a b : Word) :
    (addFlags a b).2.v =
      decide (a.getLsbD 31 = b.getLsbD 31 ∧ (addFlags a b).1.getLsbD 31 ≠ a.getLsbD 31) := by
  have bool : ∀ x y z : Bool, ((x == y) && (z != x)) = decide (x = y ∧ z ≠ x) := by decide
  exact bool _ _ _

/-- V of the difference: operands of unlike sign, and a result of the subtrahend's sign. -/
theorem subFlags_v (a b : Word) :
    (subFlags a b).2.v =
      decide (a.getLsbD 31 ≠ b.getLsbD 31 ∧ (subFlags a b).1.getLsbD 31 ≠ a.getLsbD 31) := by
  have bool : ∀ x y z : Bool, ((x != y) && (z != x)) = decide (x ≠ y ∧ z ≠ x) := by decide
  exact bool _ _ _

/-- The sign bit, as a bound. -/
theorem getLsbD_31_eq (a : Word) : a.getLsbD 31 = decide (2 ^ 31 ≤ a.toNat) := by
  rw [← BitVec.msb_eq_decide a]
  exact (BitVec.msb_eq_getLsbD_last a).symm

/-- V of the sum is exact: the signed sum does not fit in 32 bits (R161). -/
theorem addFlags_v_iff (a b : Word) :
    (addFlags a b).2.v = true ↔ ¬(-2 ^ 31 ≤ a.toInt + b.toInt ∧ a.toInt + b.toInt < 2 ^ 31) := by
  have ha := a.isLt
  have hb := b.isLt
  rw [addFlags_v, addFlags_fst, decide_eq_true_iff]
  simp only [getLsbD_31_eq, BitVec.toNat_add, BitVec.toInt_eq_toNat_cond, decide_eq_decide, ne_eq]
  omega

/-- V of the difference is exact (R161). -/
theorem subFlags_v_iff (a b : Word) :
    (subFlags a b).2.v = true ↔ ¬(-2 ^ 31 ≤ a.toInt - b.toInt ∧ a.toInt - b.toInt < 2 ^ 31) := by
  have ha := a.isLt
  have hb := b.isLt
  rw [subFlags_v, subFlags_fst, decide_eq_true_iff]
  simp only [getLsbD_31_eq, BitVec.toNat_sub, BitVec.toInt_eq_toNat_cond, decide_eq_decide, ne_eq]
  omega

/-- The signed order, from N and V of the difference (R153, decision D11). -/
theorem subFlags_l (a b : Word) : (subFlags a b).2.l = ((subFlags a b).2.n != (subFlags a b).2.v) := by
  have ha := a.isLt
  have hb := b.isLt
  have n : (subFlags a b).2.n = (a - b).getLsbD 31 := congrArg (BitVec.getLsbD · 31) (subFlags_fst a b)
  rw [Bool.eq_iff_iff, bne_iff_ne, ne_eq, @Bool.eq_iff_iff (subFlags a b).2.n, subFlags_v_iff, n, getLsbD_31_eq,
    decide_eq_true_iff]
  show decide (a.toInt < b.toInt) = true ↔ _
  rw [decide_eq_true_iff]
  simp only [BitVec.toNat_sub, BitVec.toInt_eq_toNat_cond]
  omega

/-- GE is L's complement: the signed order is total (R142). -/
theorem subFlags_ge (a b : Word) : (subFlags a b).2.ge = !(subFlags a b).2.l := by
  show decide (b.toInt ≤ a.toInt) = !decide (a.toInt < b.toInt)
  rw [← decide_not, decide_eq_decide, not_lt]

/-! ## ADD, SUB and CMP -/

/-- ADD's write-back. -/
theorem exec_add_writesBack (ri rj : Reg) (b : Source) (s : State) :
    ∃ t, exec (.add ri rj b) s = .next t ∧
      WritesBack s t ri (addFlags (s.reg rj) (sourceValue b s)).1 0x0F
        (flagBit (addFlags (s.reg rj) (sourceValue b s)).2.c (addFlags (s.reg rj) (sourceValue b s)).2.n
          (addFlags (s.reg rj) (sourceValue b s)).2.v (addFlags (s.reg rj) (sourceValue b s)).2.z false false) :=
  ⟨_, execAdd_eq ri rj b s, writeBack_writesBack s .arith ri _ _⟩

/-- A place in the mask of C, N, V and Z is one of their four. -/
theorem lt_four_of_arith_mask {k : Nat} (h : (0x0F : Word).getLsbD k = true) : k < 4 :=
  of_decide_eq_true ((flagPolicy_arith k).symm.trans h)

/-- SUB's write-back: the values of GE and L stand outside its mask. -/
theorem exec_sub_writesBack (ri rj : Reg) (b : Source) (s : State) :
    ∃ t, exec (.sub ri rj b) s = .next t ∧
      WritesBack s t ri (subFlags (s.reg rj) (sourceValue b s)).1 0x0F
        (flagBit (subFlags (s.reg rj) (sourceValue b s)).2.c (subFlags (s.reg rj) (sourceValue b s)).2.n
          (subFlags (s.reg rj) (sourceValue b s)).2.v (subFlags (s.reg rj) (sourceValue b s)).2.z false false) := by
  refine ⟨_, execSub_eq ri rj b s, writesBack_congr (writeBack_writesBack s .arith ri _ _) fun k hk => ?_⟩
  match k, lt_four_of_arith_mask hk with
  | 0, _ | 1, _ | 2, _ | 3, _ => rfl

/-- Settles O38: the write-back of the sum, and the group of opcode 8. -/
theorem addResult : Obligations.AddResult := by
  intro ri rj b s A B t33 r
  have low : r = (addFlags A B).1 := (setWidth_eq_low_word t33).symm
  refine ⟨?_, fun _ hw => decode_of_opcode .add hw⟩
  rw [low, ← addFlags_v]
  exact exec_add_writesBack ri rj b s

/-- Settles O39: the write-back of the difference. -/
theorem subResult : Obligations.SubResult := by
  intro ri rj b s A B t33 r
  have low : r = (subFlags A B).1 := (setWidth_eq_low_word t33).symm
  rw [low, ← subFlags_v]
  exact ⟨exec_sub_writesBack ri rj b s, subFlags_fst A B⟩

/-- SR after CMP, bit by bit. -/
theorem exec_cmp_bits (rj : Reg) (b : Source) (s : State) :
    ∃ t, exec (.cmp rj b) s = .next t ∧ t = { s with x := t.x, pc := s.pc + 1 } ∧
      (∀ q : Reg, q ≠ 0 → t.reg q = s.reg q) ∧
      ∀ k, (t.reg 0).getLsbD k =
        if k < 6 then
          flagBit (subFlags (s.reg rj) (sourceValue b s)).2.c (subFlags (s.reg rj) (sourceValue b s)).2.n
            (subFlags (s.reg rj) (sourceValue b s)).2.v (subFlags (s.reg rj) (sourceValue b s)).2.z
            (subFlags (s.reg rj) (sourceValue b s)).2.ge (subFlags (s.reg rj) (sourceValue b s)).2.l k
        else (s.reg 0).getLsbD k := by
  refine ⟨_, execCmp_eq rj b s, ?_, fun q => writeFlags_reg s _ _, fun k => ?_⟩
  · rw [writeFlags_frame]
    rfl
  · rw [State.advance_eq, State.reg_jump, writeFlags_bit, flagPolicy_compare]
    simp only [decide_eq_true_iff]

/-- Settles O40: the flags of the difference, in their places. -/
theorem cmpResult : Obligations.CmpResult := by
  intro rj b s A B t33 r
  have low : r = (subFlags A B).1 := (setWidth_eq_low_word t33).symm
  rw [low, ← subFlags_v]
  exact exec_cmp_bits rj b s

/-- Settles O41: C and V of the sum and of the difference are exact. -/
theorem arithmeticFlagsAreExact : Obligations.ArithmeticFlagsAreExact := by
  intro ri rj b s hri A B
  obtain ⟨t, ht, -, -, -, sum⟩ := exec_add_writesBack ri rj b s
  obtain ⟨u, hu, -, -, -, difference⟩ := exec_sub_writesBack ri rj b s
  refine ⟨⟨t, ht, ?_, ?_⟩, u, hu, ?_, ?_⟩
  · rw [sum hri 0]
    exact (addFlags_c A B ▸ decide_eq_true_iff :)
  · rw [sum hri 2]
    exact addFlags_v_iff A B
  · rw [difference hri 0]
    exact (subFlags_c A B ▸ decide_eq_true_iff :)
  · rw [difference hri 2]
    exact subFlags_v_iff A B

/-- Settles O42: L is N ≠ V of the difference, and GE its complement. -/
theorem compareOrderIsNegativeXorOverflow : Obligations.CompareOrderIsNegativeXorOverflow := by
  intro rj b s
  obtain ⟨t, ht, -, -, bits⟩ := exec_cmp_bits rj b s
  refine ⟨t, ht, ?_⟩
  simp only [bits, flagBit]
  simp [subFlags_ge, subFlags_l, bne]

/-! ## The logical instructions -/

/-- The write-back of a logical result: N and Z of it (R150, R160). -/
theorem logical_writesBack (ri : Reg) (r : Word) (s : State) :
    ∃ t, logical ri r s = .next t ∧
      WritesBack s t ri r 0x0A (flagBit false (r.getLsbD 31) false (decide (r = 0)) false false) :=
  ⟨_, logical_eq ri r s, writeBack_writesBack s .logical ri r _⟩

/-- Settles O43: the five results. -/
theorem logicalResults : Obligations.LogicalResults := by
  unfold Obligations.LogicalResults
  simp only [List.forall_mem_cons]
  exact ⟨fun ri rj s => logical_writesBack ri _ s, fun ri rj b s => logical_writesBack ri _ s,
    fun ri rj b s => logical_writesBack ri _ s, fun ri rj b s => logical_writesBack ri _ s,
    fun ri rj b s => logical_writesBack ri _ s, fun _ h => absurd h List.not_mem_nil⟩

/-- The extended mask of source `n`'s enable bit has that bit alone (R212, decision D8). -/
theorem enableMask_bit (n : Fin 8) (k : Nat) : (extendConst (1#16 <<< (6 + n.val))).getLsbD k = decide (k = 6 + n.val) := by
  by_cases hk : k < 32
  · have all : ∀ (n : Fin 8) (k : Fin 32),
        (extendConst (1#16 <<< (6 + n.val))).getLsbD k.val = decide (k.val = 6 + n.val) := by decide
    exact all n ⟨k, hk⟩
  · rw [BitVec.getLsbD_of_ge _ _ (by omega)]
    exact (decide_eq_false (by omega)).symm

/-- Settles O44: with R0 as destination the result is all of SR. -/
theorem enableMasksTouchOneBit : Obligations.EnableMasksTouchOneBit := by
  intro n s
  obtain ⟨t, ht, -, set, -, -⟩ := logical_writesBack 0 (s.reg 0 ||| extendConst (1#16 <<< (6 + n.val))) s
  obtain ⟨u, hu, -, clear, -, -⟩ := logical_writesBack 0 (s.reg 0 &&& ~~~extendConst (1#16 <<< (6 + n.val))) s
  refine ⟨⟨t, ht, fun k => ?_⟩, u, hu, fun k => ?_⟩
  · rw [set, BitVec.getLsbD_or, enableMask_bit]
    by_cases hk : k = 6 + n.val <;> simp [hk]
  · rw [clear, BitVec.getLsbD_and, BitVec.getLsbD_not, enableMask_bit]
    by_cases hk : k = 6 + n.val
    · simp [hk]
    · simp only [hk, decide_false, Bool.not_false, Bool.and_true, if_false]
      exact Bool.and_eq_left_iff_imp.2 fun h => decide_eq_true (BitVec.lt_of_getLsbD h)

end Sys2Proof.Machine
end

section
namespace Sys2Proof.Machine

/-! ## Rotations, bit by bit -/

/-- A right rotation moves the bit at `i + n`, counted round, to `i`. -/
theorem getLsbD_rotateRight_mod {w : Nat} (x : BitVec w) (n : Nat) {i : Nat} (hi : i < w) :
    (x.rotateRight n).getLsbD i = x.getLsbD ((i + n) % w) := by
  have hn := Nat.mod_lt n (by omega : w > 0)
  rw [BitVec.getLsbD_rotateRight, ← Nat.add_mod_mod]
  generalize n % w = r at hn
  by_cases h : i < w - r
  · rw [decide_eq_true h, cond_true, Nat.mod_eq_of_lt (by omega), Nat.add_comm]
  · have wrap : (i + r) % w = i - (w - r) := by
      rw [Nat.mod_eq_sub_mod (by omega), Nat.mod_eq_of_lt (by omega)]
      omega
    rw [decide_eq_false h, cond_false, decide_eq_true hi, Bool.true_and, wrap]

/-- A left rotation is the right rotation by what is missing to the width. -/
theorem rotateLeft_eq_rotateRight {w : Nat} (x : BitVec w) (n : Nat) : x.rotateLeft n = x.rotateRight (w - n % w) := by
  apply BitVec.eq_of_getLsbD_eq
  intro i hi
  have hn := Nat.mod_lt n (by omega : w > 0)
  rw [getLsbD_rotateRight_mod x _ hi, BitVec.getLsbD_rotateLeft]
  generalize n % w = r at hn
  by_cases h : i < r
  · rw [decide_eq_true h, cond_true, Nat.mod_eq_of_lt (by omega), Nat.add_comm]
  · have wrap : (i + (w - r)) % w = i - r := by
      rw [Nat.mod_eq_sub_mod (by omega), Nat.mod_eq_of_lt (by omega)]
      omega
    rw [decide_eq_false h, cond_false, decide_eq_true hi, Bool.true_and, wrap]

/-- Right rotations add up. -/
theorem rotateRight_rotateRight {w : Nat} (x : BitVec w) (m n : Nat) :
    (x.rotateRight m).rotateRight n = x.rotateRight (m + n) := by
  apply BitVec.eq_of_getLsbD_eq
  intro i hi
  rw [getLsbD_rotateRight_mod _ n hi, getLsbD_rotateRight_mod x m (Nat.mod_lt _ (by omega)),
    getLsbD_rotateRight_mod x _ hi, Nat.mod_add_mod, Nat.add_right_comm, Nat.add_assoc]

/-- Right rotations by counts that agree modulo the width are the same. -/
theorem rotateRight_congr {w : Nat} (x : BitVec w) {m n : Nat} (h : m % w = n % w) : x.rotateRight m = x.rotateRight n := by
  rw [← BitVec.rotateRight_mod_eq_rotateRight, h, BitVec.rotateRight_mod_eq_rotateRight]

/-- No rotation. -/
theorem rotateRight_zero {w : Nat} (x : BitVec w) : x.rotateRight 0 = x := by
  refine BitVec.eq_of_getLsbD_eq fun i hi => ?_
  rw [getLsbD_rotateRight_mod x 0 hi, Nat.add_zero, Nat.mod_eq_of_lt hi]

/-- No rotation. -/
theorem rotateLeft_zero {w : Nat} (x : BitVec w) : x.rotateLeft 0 = x := by
  refine BitVec.eq_of_getLsbD_eq fun i hi => ?_
  rw [rotateLeft_eq_rotateRight, getLsbD_rotateRight_mod x _ hi, Nat.zero_mod, Nat.sub_zero, Nat.add_mod_right,
    Nat.mod_eq_of_lt hi]

/-- One more left rotation, taken last. -/
theorem rotateLeft_succ {w : Nat} (hw : 0 < w) (x : BitVec w) (n : Nat) :
    x.rotateLeft (n + 1) = (x.rotateLeft n).rotateLeft 1 := by
  simp only [rotateLeft_eq_rotateRight, rotateRight_rotateRight]
  refine rotateRight_congr x ?_
  have hn := Nat.mod_lt n hw
  have h1 := Nat.mod_lt 1 hw
  rw [Nat.add_mod_eq_ite]
  split
  · congr 1
    omega
  · rw [← Nat.add_mod_right]
    congr 1
    omega

/-! ## One-position steps, bit by bit (R173 – R179) -/

/-- A word moved down one place, with `b` coming in on top. -/
def shiftInTop (b : Bool) (v : Word) : Word := BitVec.ofBool b ++ v.extractLsb' 1 31

/-- A word moved up one place, with `b` coming in below. -/
def shiftInBottom (v : Word) (b : Bool) : Word := v.extractLsb' 0 31 ++ BitVec.ofBool b

/-- A field of one bit. -/
theorem extractLsb'_one (v : Word) (k : Nat) : v.extractLsb' k 1 = BitVec.ofBool (v.getLsbD k) := by
  refine BitVec.eq_of_getLsbD_eq fun i hi => ?_
  obtain rfl : i = 0 := by omega
  simp

/-- The bits after a move down: those one place above, and `b` on top. -/
theorem getLsbD_shiftInTop (b : Bool) (v : Word) {i : Nat} (hi : i < 32) :
    (shiftInTop b v).getLsbD i = if i < 31 then v.getLsbD (i + 1) else b := by
  rw [shiftInTop, BitVec.getLsbD_append, BitVec.getLsbD_extractLsb', BitVec.getLsbD_ofBool, Nat.add_comm 1 i]
  split
  · next h => rw [decide_eq_true h, Bool.true_and]
  · rw [show i - 31 = 0 by omega]; simp

/-- The bits after a move up: those one place below, and `b` at the bottom. -/
theorem getLsbD_shiftInBottom (v : Word) (b : Bool) {i : Nat} (hi : i < 32) :
    (shiftInBottom v b).getLsbD i = if i = 0 then b else v.getLsbD (i - 1) := by
  rw [shiftInBottom, BitVec.getLsbD_append, BitVec.getLsbD_extractLsb', BitVec.getLsbD_ofBool, Nat.zero_add]
  by_cases h : i = 0
  · simp [h]
  · rw [if_neg (by omega), if_neg h, decide_eq_true (by omega), Bool.true_and]

/-! ## Shifts (R173 – R175) -/

/-- `n` steps of SRL (R173). -/
theorem iterate_stepSrl (n : Nat) (v : Word) (c : Bool) : iterateStep stepSrl n (v, c) = (v >>> n, c) := by
  refine iterateStep_induction (good := fun n q => q = (v >>> n, c)) (by simp) (fun n q hq => ?_) n
  subst hq
  refine Prod.ext (BitVec.eq_of_getLsbD_eq fun i hi => ?_) rfl
  refine (getLsbD_shiftInTop false (v >>> n) hi).trans ?_
  rw [BitVec.getLsbD_ushiftRight, BitVec.getLsbD_ushiftRight]
  split
  · congr 1; omega
  · exact (BitVec.getLsbD_of_ge v _ (by omega)).symm

/-- `n` steps of SLL (R174). -/
theorem iterate_stepSll (n : Nat) (v : Word) (c : Bool) : iterateStep stepSll n (v, c) = (v <<< n, c) := by
  refine iterateStep_induction (good := fun n q => q = (v <<< n, c)) (by simp) (fun n q hq => ?_) n
  subst hq
  refine Prod.ext (BitVec.eq_of_getLsbD_eq fun i hi => ?_) rfl
  refine (getLsbD_shiftInBottom (v <<< n) false hi).trans ?_
  rw [BitVec.getLsbD_shiftLeft, BitVec.getLsbD_shiftLeft]
  by_cases h0 : i = 0
  · simp [h0]
  · have place : i - 1 - n = i - (n + 1) := by omega
    have filled : i - 1 < n ↔ i < n + 1 := by omega
    rw [if_neg h0, place, decide_eq_true (by omega : i - 1 < 32), decide_eq_true hi, decide_eq_decide.2 filled]

/-- An arithmetic shift reads every place beyond the word as its sign bit. -/
theorem getLsbD_sshiftRight_min (v : Word) (n : Nat) {i : Nat} (hi : i < 32) :
    (v.sshiftRight n).getLsbD i = v.getLsbD (min (n + i) 31) := by
  rw [BitVec.getLsbD_sshiftRight, decide_eq_false (by omega), Bool.not_false, Bool.true_and]
  split
  · rw [Nat.min_eq_left (by omega)]
  · rw [Nat.min_eq_right (by omega)]
    exact BitVec.msb_eq_getLsbD_last v

/-- `n` steps of SRA (R175). -/
theorem iterate_stepSra (n : Nat) (v : Word) (c : Bool) : iterateStep stepSra n (v, c) = (v.sshiftRight n, c) := by
  refine iterateStep_induction (good := fun n q => q = (v.sshiftRight n, c)) (by simp) (fun n q hq => ?_) n
  subst hq
  refine Prod.ext (BitVec.eq_of_getLsbD_eq fun i hi => ?_) rfl
  have step : (stepSra (v.sshiftRight n, c)).1 = shiftInTop ((v.sshiftRight n).getLsbD 31) (v.sshiftRight n) :=
    congrArg (· ++ _) (extractLsb'_one _ 31)
  rw [step, getLsbD_shiftInTop _ _ hi, getLsbD_sshiftRight_min v (n + 1) hi, getLsbD_sshiftRight_min v n (by omega : 31 < 32)]
  split
  · rw [getLsbD_sshiftRight_min v n (by omega)]
    congr 1
    omega
  · congr 1
    omega

/-! ## Rotations (R176 – R179) -/

/-- RTR's step is the right rotation by one. -/
theorem stepRtr_eq (p : Word × Bool) : stepRtr p = (p.1.rotateRight 1, p.2) := by
  have step : (stepRtr p).1 = shiftInTop (p.1.getLsbD 0) p.1 := congrArg (· ++ _) (extractLsb'_one _ 0)
  refine Prod.ext (BitVec.eq_of_getLsbD_eq fun i hi => ?_) rfl
  rw [step, getLsbD_shiftInTop _ _ hi, getLsbD_rotateRight_mod _ _ hi]
  split
  · rw [Nat.mod_eq_of_lt (by omega)]
  · rw [show i = 31 by omega]

/-- RTL's step is the left rotation by one. -/
theorem stepRtl_eq (p : Word × Bool) : stepRtl p = (p.1.rotateLeft 1, p.2) := by
  have step : (stepRtl p).1 = shiftInBottom p.1 (p.1.getLsbD 31) := congrArg (_ ++ ·) (extractLsb'_one _ 31)
  refine Prod.ext (BitVec.eq_of_getLsbD_eq fun i hi => ?_) rfl
  rw [step, getLsbD_shiftInBottom _ _ hi, rotateLeft_eq_rotateRight, getLsbD_rotateRight_mod _ _ hi]
  split
  · next h => rw [h]
  · congr 1; omega

/-- The 33-bit word of C and the operand (R178, R179). -/
def carryWord (p : Word × Bool) : BitVec 33 := BitVec.ofBool p.2 ++ p.1

/-- The bits of the 33-bit word: the operand's, and C on top. -/
theorem getLsbD_carryWord (p : Word × Bool) {i : Nat} (hi : i < 33) :
    (carryWord p).getLsbD i = if i < 32 then p.1.getLsbD i else p.2 := by
  rw [carryWord, BitVec.getLsbD_append, BitVec.getLsbD_ofBool]
  split
  · rfl
  · rw [show i - 32 = 0 by omega]; simp

/-- RRC's step is the right rotation of the 33-bit word by one. -/
theorem carryWord_stepRrc (p : Word × Bool) : carryWord (stepRrc p) = (carryWord p).rotateRight 1 := by
  refine BitVec.eq_of_getLsbD_eq fun i hi => ?_
  have step : stepRrc p = (shiftInTop p.2 p.1, p.1.getLsbD 0) := rfl
  rw [getLsbD_rotateRight_mod _ _ hi, getLsbD_carryWord _ hi, getLsbD_carryWord _ (Nat.mod_lt _ (by omega)), step]
  obtain h | rfl | rfl : i < 31 ∨ i = 31 ∨ i = 32 := by omega
  · rw [if_pos (by omega), getLsbD_shiftInTop _ _ (by omega), if_pos h, Nat.mod_eq_of_lt (by omega), if_pos (by omega)]
  · exact getLsbD_shiftInTop p.2 p.1 (i := 31) (by omega)
  · simp

/-- RLC's step is the left rotation of the 33-bit word by one. -/
theorem carryWord_stepRlc (p : Word × Bool) : carryWord (stepRlc p) = (carryWord p).rotateLeft 1 := by
  refine BitVec.eq_of_getLsbD_eq fun i hi => ?_
  have step : stepRlc p = (shiftInBottom p.1 p.2, p.1.getLsbD 31) := rfl
  rw [rotateLeft_eq_rotateRight, getLsbD_rotateRight_mod _ _ hi, getLsbD_carryWord _ hi,
    getLsbD_carryWord _ (Nat.mod_lt _ (by omega)), step]
  obtain rfl | ⟨h0, h⟩ | rfl : i = 0 ∨ (0 < i ∧ i < 32) ∨ i = 32 := by omega
  · exact getLsbD_shiftInBottom p.1 p.2 (i := 0) (by omega)
  · have place : (i + (33 - 1 % 33)) % 33 = i - 1 := by omega
    rw [if_pos h, getLsbD_shiftInBottom _ _ h, if_neg (by omega), place, if_pos (by omega)]
  · simp

/-! ## Rotations by any count (R176 – R179) -/

/-- `n` steps of RTR (R176). -/
theorem iterate_stepRtr (n : Nat) (v : Word) (c : Bool) : iterateStep stepRtr n (v, c) = (v.rotateRight n, c) := by
  refine iterateStep_induction (good := fun n q => q = (v.rotateRight n, c)) ?_ (fun n q hq => ?_) n
  · rw [rotateRight_zero]
  · rw [hq, stepRtr_eq, rotateRight_rotateRight]

/-- `n` steps of RTL (R177). -/
theorem iterate_stepRtl (n : Nat) (v : Word) (c : Bool) : iterateStep stepRtl n (v, c) = (v.rotateLeft n, c) := by
  refine iterateStep_induction (good := fun n q => q = (v.rotateLeft n, c)) ?_ (fun n q hq => ?_) n
  · rw [rotateLeft_zero]
  · rw [hq, stepRtl_eq, ← rotateLeft_succ (by omega)]

/-- The 33-bit word after the counted steps of RRC. -/
theorem carryWord_iterate_stepRrc (n : Nat) (p : Word × Bool) :
    carryWord (iterateStep stepRrc n p) = (carryWord p).rotateRight n := by
  refine iterateStep_induction (good := fun n q => carryWord q = (carryWord p).rotateRight n) ?_ (fun n q hq => ?_) n
  · rw [rotateRight_zero]
  · rw [carryWord_stepRrc, hq, rotateRight_rotateRight]

/-- The 33-bit word after the counted steps of RLC. -/
theorem carryWord_iterate_stepRlc (n : Nat) (p : Word × Bool) :
    carryWord (iterateStep stepRlc n p) = (carryWord p).rotateLeft n := by
  refine iterateStep_induction (good := fun n q => carryWord q = (carryWord p).rotateLeft n) ?_ (fun n q hq => ?_) n
  · rw [rotateLeft_zero]
  · rw [carryWord_stepRlc, hq, ← rotateLeft_succ (by omega)]

/-! ## The instructions -/

/-- The write-back of SRL, SLL, SRA, RTR and RTL: N and Z of the result, and C kept (R171). -/
theorem shiftBy_writesBack {step : ShiftStep} {f : Word → Nat → Word}
    (hf : ∀ n v c, iterateStep step n (v, c) = (f v n, c)) (ri rj : Reg) (c : Count) (s : State) :
    ∃ t, shiftBy .shift step ri rj c s = .next t ∧
      WritesBack s t ri (f (s.reg rj) (countValue c s)) 0x0A
        (flagBit false ((f (s.reg rj) (countValue c s)).getLsbD 31) false (decide (f (s.reg rj) (countValue c s) = 0))
          false false) := by
  refine ⟨_, shiftBy_eq .shift step ri rj c s, ?_⟩
  rw [hf]
  refine writesBack_congr (writeBack_writesBack s .shift ri _ _) fun k hk => ?_
  match k with
  | 0 => cases hk
  | 1 | 2 | 3 | 4 | 5 | _ + 6 => rfl

/-- Settles O45: the iterates of the three steps are the three shifts. -/
theorem shiftResults : Obligations.ShiftResults := by
  unfold Obligations.ShiftResults
  simp only [List.forall_mem_cons]
  exact ⟨shiftBy_writesBack iterate_stepSrl, shiftBy_writesBack iterate_stepSll, shiftBy_writesBack iterate_stepSra,
    fun _ h => absurd h List.not_mem_nil⟩

/-- Settles O46: the iterates of the two steps are the two rotations, which depend on the count modulo 32 alone. -/
theorem rotateResults : Obligations.RotateResults := by
  unfold Obligations.RotateResults
  simp only [List.forall_mem_cons, BitVec.rotateRight_mod_eq_rotateRight, BitVec.rotateLeft_mod_eq_rotateLeft]
  exact ⟨shiftBy_writesBack iterate_stepRtr, shiftBy_writesBack iterate_stepRtl, fun _ h => absurd h List.not_mem_nil⟩

/-- The value and the carry, from the 33-bit word. -/
theorem eq_of_carryWord {p : Word × Bool} {y : BitVec 33} (h : carryWord p = y) :
    p = (y.extractLsb' 0 32, y.getLsbD 32) := by
  subst h
  refine Prod.ext (BitVec.extractLsb'_append_eq_right).symm ?_
  rw [getLsbD_carryWord p (by omega)]
  rfl

/-- The write-back of RRC and RLC: C, N and Z (R178, R179). -/
theorem rotateCarry_writesBack {step : ShiftStep} {f : BitVec 33 → Nat → BitVec 33}
    (hf : ∀ n p, carryWord (iterateStep step n p) = f (carryWord p) n) (ri rj : Reg) (c : Count) (s : State) :
    let y := f (BitVec.ofBool ((s.reg 0).getLsbD 0) ++ s.reg rj) (countValue c s)
    let r : Word := y.extractLsb' 0 32
    ∃ t, shiftBy .rotateCarry step ri rj c s = .next t ∧
      WritesBack s t ri r 0x0B (flagBit (y.getLsbD 32) (r.getLsbD 31) false (decide (r = 0)) false false) := by
  intro y r
  have result : iterateStep step (countValue c s) (s.reg rj, srC s.sr) = (r, y.getLsbD 32) :=
    eq_of_carryWord (hf (countValue c s) (s.reg rj, srC s.sr))
  refine ⟨_, shiftBy_eq .rotateCarry step ri rj c s, ?_⟩
  rw [result]
  exact writeBack_writesBack s .rotateCarry ri _ _

/-- Settles O47: the iterates of the two steps rotate the 33-bit word, by the count modulo 33. -/
theorem rotateThroughCarryResults : Obligations.RotateThroughCarryResults := by
  unfold Obligations.RotateThroughCarryResults
  simp only [List.forall_mem_cons, BitVec.rotateRight_mod_eq_rotateRight, BitVec.rotateLeft_mod_eq_rotateLeft]
  exact ⟨rotateCarry_writesBack carryWord_iterate_stepRrc, rotateCarry_writesBack carryWord_iterate_stepRlc,
    fun _ h => absurd h List.not_mem_nil⟩

/-- Settles O48: the two counts rotate the value alike, and both keep the carry. -/
theorem rotateLeftIsRotateRight : Obligations.RotateLeftIsRotateRight := by
  intro ri rj n s
  have count : (BitVec.ofNat 6 ((32 - n.toNat % 32) % 32)).toNat % 32 = (32 - n.toNat % 32) % 32 := by
    rw [BitVec.toNat_ofNat]
    omega
  have value : (s.reg rj).rotateLeft n.toNat = (s.reg rj).rotateRight (BitVec.ofNat 6 ((32 - n.toNat % 32) % 32)).toNat := by
    rw [rotateLeft_eq_rotateRight]
    exact rotateRight_congr _ count.symm
  show execRtl ri rj (.const n) s = execRtr ri rj (.const _) s
  simp only [execRtl, execRtr, shiftBy_eq, iterate_stepRtl, iterate_stepRtr, countValue, value]

end Sys2Proof.Machine
end

section
namespace Sys2Proof.Machine

/-! ## Floating point (R190 – R199) -/

/-- Settles O49: the floating-point shape, and the groups of opcodes 17 … 20. -/
theorem floatResults : Obligations.FloatResults := by
  intro ri rj b s
  refine ⟨fpuResult_eq ri _ s, fpuResult_eq ri _ s, fpuResult_eq ri _ s, fpuResult_eq ri _ s, ?_⟩
  simp only [List.forall_mem_cons]
  exact ⟨fun _ => decode_of_opcode .fa, fun _ => decode_of_opcode .fs, fun _ => decode_of_opcode .fm,
    fun _ => decode_of_opcode .fd, fun _ h => absurd h List.not_mem_nil⟩

/-- Settles O50: the floating-point shape. -/
theorem conversionResults : Obligations.ConversionResults :=
  fun ri _ s => ⟨fpuResult_eq ri _ s, fpuResult_eq ri _ s⟩

/-- A word that stands for a number is no NaN. -/
theorem not_isNaN32_of_num {a : Word} {p : Bool} {m e : Nat} (h : binary32 a = .num p m e) : ¬isNaN32 a := by
  rw [isNaN32, h]
  exact nofun

/-- Settles O51: `divIeee` on a zero divisor. -/
theorem recommendedDivisionByZero : Obligations.RecommendedDivisionByZero := by
  intro fp hfp a b p q m e f ha hb
  have inf : ∀ p q : Bool, inf32 (p != q) = if p = q then 0x7F800000 else 0xFF800000 := by decide
  rw [hfp.div a b (not_isNaN32_of_num ha) (not_isNaN32_of_num hb), divIeee, ha, hb]
  refine ⟨fun hm => ?_, fun hm => ?_⟩
  · simp only [if_true, if_neg hm, inf]
  · simp only [if_true, hm, quietNaN]

/-- Addition commutes on all operands. -/
theorem addIeee_comm (a b : Word) : addIeee a b = addIeee b a := by
  unfold addIeee
  cases binary32 a with
  | nan => cases binary32 b <;> rfl
  | inf p =>
    cases binary32 b with
    | nan | num _ _ _ => rfl
    | inf q => by_cases h : p = q <;> simp [h, eq_comm]
  | num p m e =>
    cases binary32 b with
    | nan | inf _ => rfl
    | num q n f => simp only [Int.add_comm (scaled p m e), Bool.and_comm p]

/-- Multiplication commutes on all operands. -/
theorem mulIeee_comm (a b : Word) : mulIeee a b = mulIeee b a := by
  have sign : ∀ p q : Bool, (p != q) = (q != p) := by decide
  unfold mulIeee
  cases binary32 a with
  | nan => cases binary32 b <;> rfl
  | inf p =>
    cases binary32 b with
    | nan => rfl
    | inf q | num q _ _ => simp only [sign p q]
  | num p m e =>
    cases binary32 b with
    | nan => rfl
    | inf q => simp only [sign p q]
    | num q n f => simp only [sign p q, Nat.mul_comm m, Nat.add_comm e]

/-- Settles O52: the two operations commute, and the recommended functions are they. -/
theorem recommendedSumsCommute : Obligations.RecommendedSumsCommute := by
  intro fp hfp a b ha hb
  rw [hfp.add a b ha hb, hfp.add b a hb ha, hfp.mul a b ha hb, hfp.mul b a hb ha]
  exact ⟨addIeee_comm a b, mulIeee_comm a b⟩

/-- Settles O53: the integer part is in range, and a signed word holds it. -/
theorem recommendedTruncation : Obligations.RecommendedTruncation := by
  intro fp hfp a neg m e ha hq
  have trunc : truncIeee a =
      some (if neg then -((m * 2 ^ e / 2 ^ 149 : Nat) : Int) else ((m * 2 ^ e / 2 ^ 149 : Nat) : Int)) := by
    rw [truncIeee, ha]
  generalize m * 2 ^ e / 2 ^ 149 = n at hq trunc ⊢
  have range : -2 ^ 31 ≤ (if neg then -(n : Int) else n) ∧ (if neg then -(n : Int) else n) < 2 ^ 31 := by
    cases neg with
    | false =>
      have h : n < 2 ^ 31 := hq.resolve_right fun h => Bool.false_ne_true h.1
      rw [if_neg Bool.false_ne_true]
      omega
    | true =>
      have h : n ≤ 2 ^ 31 := hq.elim Nat.le_of_lt fun h => h.2.le
      rw [if_pos rfl]
      omega
  have conversion : toIntIeee a = some (BitVec.ofInt 32 (if neg then -(n : Int) else n)) := by
    rw [toIntIeee, trunc]
    exact if_pos range
  rw [hfp.toInt a _ conversion]
  exact BitVec.toInt_ofInt_eq_self (by omega) range.1 range.2

end Sys2Proof.Machine
end
